-- ==== Sys2Proof/Word.lean ====
section
/-!
DEFINITION. The word types of the TZR1 core (spec 00_scope.md R5, 10_state.md R13, R18). Every value is unsigned (R7).
-/

namespace Sys2Proof

/-- A data word: a general register, a literal `K`, a data-bus address or a data-bus byte (`N = 8`, `DAW = 8`; R5). -/
abbrev Byte := BitVec 8

/-- An instruction address: the program counter, a jump target `PCK` or a return address (`PCW = 11`; R5, R18). -/
abbrev Addr := BitVec 11

/-- An instruction word (`IW = 16`; R5, R40). -/
abbrev IWord := BitVec 16

/-- A register number, 0 to 7 (the 3-bit fields `Ra` and `Rb`; R13, R42). -/
abbrev RegNum := BitVec 3

/-- A 5-bit opcode, `ir[15:11]` (R40). -/
abbrev Opcode := BitVec 5

/-- The ALU's extended result, one bit wider than a data word (R55). -/
abbrev Ext := BitVec 9

end Sys2Proof
end

