-- ==== Sys2Proof/Config.lean ====
section
/-!
DEFINITION. What an implementation of the TZR1 core fixes: the construction parameters that spec 00_scope.md R5 names
and 92_eei_decisions.md leaves OPEN, as plain data that `State` carries and no step changes, and the one value that
nothing inside the core fixes, as an opaque function. The spec's default values are in `Machine/Defaults.lean` and
`Decode.lean`.
-/

namespace Sys2Proof

/-- The 25 instructions of the closed instruction set (R41), in the order of `spec/opcode_table.json`: the domain of
the parameter `OPCODE_MAP` (R47). The suffix `RK` stands for `Ra,K` and `RR` for `Ra,Rb`. -/
inductive Op where
  | nop
  | addRK | addRR | subRK | subRR | andRK | andRR | orRK | orRR
  | cmpRK | cmpRR | movRK | movRR
  | loadK | loadR | storeK | storeR
  | notR | shlR | shrR
  | jmp | jc | jz | call | ret
  deriving DecidableEq, Repr

/-- The row of an instruction in the opcode table, counted from 0. -/
def Op.index : Op → Fin 25
  | .nop => 0
  | .addRK => 1 | .addRR => 2 | .subRK => 3 | .subRR => 4
  | .andRK => 5 | .andRR => 6 | .orRK => 7 | .orRR => 8
  | .cmpRK => 9 | .cmpRR => 10 | .movRK => 11 | .movRR => 12
  | .loadK => 13 | .loadR => 14 | .storeK => 15 | .storeR => 16
  | .notR => 17 | .shlR => 18 | .shrR => 19
  | .jmp => 20 | .jc => 21 | .jz => 22 | .call => 23 | .ret => 24

/-- Every instruction, in table order. -/
def Op.all : List Op :=
  [.nop, .addRK, .addRR, .subRK, .subRR, .andRK, .andRR, .orRK, .orRR, .cmpRK, .cmpRR, .movRK, .movRR,
   .loadK, .loadR, .storeK, .storeR, .notR, .shlR, .shrR, .jmp, .jc, .jz, .call, .ret]

/-- The parameter `OPCODE_MAP` (R5, R47, D1): the opcode of each instruction, by its row in the table. -/
abbrev OpcodeMap := Vector Opcode 25

/-- The opcode that a map gives an instruction. -/
def OpcodeMap.code (m : OpcodeMap) (o : Op) : Opcode := m[o.index]

/-- The parameter `NOT_EXT` (R5, R56, D3): whether `NOT` inverts the 9-bit extended operand or the 8-bit operand. -/
inductive NotExt where
  | wide
  | narrow
  deriving DecidableEq, Repr

/-- The parameter `STACK_POLICY` (R5, R60, R61, D4): what a push on a full stack and a pop from an empty one do. -/
inductive StackPolicy where
  | fault
  | wrap
  | saturate
  deriving DecidableEq, Repr

/-- One transaction on the data bus (R31, R32, R36): its 8-bit address and the byte that moved. -/
inductive BusTxn where
  | read  (address dataIn : Byte)
  | write (address dataOut : Byte)
  deriving DecidableEq, Repr

/-- The construction parameters of R5 that the source leaves open. `STACK_DEPTH` is the length of `State.stk`,
`STACK_INIT` what the entries of `State.stk` hold at power-up, `PROGRAM` is `State.program`, and `END_PCS` is given
with each claim (`Safety.lean`). -/
structure Params where
  /-- `OPCODE_MAP` (D1). -/
  opcodeMap   : OpcodeMap
  /-- `NOT_EXT` (D3). -/
  notExt      : NotExt
  /-- `STACK_POLICY` (D4). -/
  stackPolicy : StackPolicy
  /-- The carry of `FLAG_RESET` (D6). -/
  carryReset  : Bool
  /-- The zero flag of `FLAG_RESET` (D6). -/
  zeroReset   : Bool
  /-- `REG_RESET` (D7). -/
  regReset    : Vector Byte 8
  /-- The part of `BUS` that is not plain memory (D11, D27): the data addresses the platform gives to I/O devices. -/
  ioAddrs     : List Byte
  deriving DecidableEq, Repr

/-- FREE VALUE (log entry 4). The byte the platform's device answers to a read where the spec fixes no answer: an I/O
address, or a plain-memory byte that nothing has written (R36, R38, I13). It may depend on every transaction the
device has seen, newest first, and on the address read. Nothing constrains it. -/
opaque Config.deviceData : List BusTxn → Byte → Byte

end Sys2Proof
end

