-- ==== Sys2Proof/Syntax.lean ====
section
/-!
DEFINITION. The instruction set (spec 30_encoding.md R41): one constructor for each row of `spec/opcode_table.json`, with
the operands its format gives it (R42, R43). An operand's type is exactly its field, so it cannot be out of range.
-/

namespace Sys2Proof

/-- An instruction. `Ra` always comes from the field `ir[10:8]`, also in a store, whose assembly text writes it second. -/
inductive Instr where
  /-- `NOP` (R115). -/
  | nop
  /-- `ADD Ra,K` (R70). -/
  | addRK (ra : RegNum) (k : Byte)
  /-- `ADD Ra,Rb` (R71). -/
  | addRR (ra rb : RegNum)
  /-- `SUB Ra,K` (R76). -/
  | subRK (ra : RegNum) (k : Byte)
  /-- `SUB Ra,Rb` (R77). -/
  | subRR (ra rb : RegNum)
  /-- `AND Ra,K` (R72). -/
  | andRK (ra : RegNum) (k : Byte)
  /-- `AND Ra,Rb` (R73). -/
  | andRR (ra rb : RegNum)
  /-- `OR Ra,K` (R74). -/
  | orRK (ra : RegNum) (k : Byte)
  /-- `OR Ra,Rb` (R75). -/
  | orRR (ra rb : RegNum)
  /-- `CMP Ra,K` (R78). -/
  | cmpRK (ra : RegNum) (k : Byte)
  /-- `CMP Ra,Rb` (R79). -/
  | cmpRR (ra rb : RegNum)
  /-- `MOV Ra,K` (R80). -/
  | movRK (ra : RegNum) (k : Byte)
  /-- `MOV Ra,Rb` (R81). -/
  | movRR (ra rb : RegNum)
  /-- `MOV Ra,[K]` (R100). -/
  | loadK (ra : RegNum) (k : Byte)
  /-- `MOV Ra,[Rb]` (R101). -/
  | loadR (ra rb : RegNum)
  /-- `MOV [K],Ra` (R102). -/
  | storeK (ra : RegNum) (k : Byte)
  /-- `MOV [Rb],Ra` (R103). -/
  | storeR (ra rb : RegNum)
  /-- `NOT Ra` (R82). -/
  | notR (ra : RegNum)
  /-- `SHL Ra` (R83). -/
  | shlR (ra : RegNum)
  /-- `SHR Ra` (R84). -/
  | shrR (ra : RegNum)
  /-- `JMP PCK` (R110). -/
  | jmp (pck : Addr)
  /-- `JC PCK` (R111). -/
  | jc (pck : Addr)
  /-- `JZ PCK` (R112). -/
  | jz (pck : Addr)
  /-- `CALL PCK` (R113). -/
  | call (pck : Addr)
  /-- `RET` (R114). -/
  | ret
  deriving DecidableEq, Repr

/-- Which of the 25 instructions an instruction is. -/
def Instr.op : Instr → Op
  | .nop => .nop
  | .addRK _ _ => .addRK | .addRR _ _ => .addRR
  | .subRK _ _ => .subRK | .subRR _ _ => .subRR
  | .andRK _ _ => .andRK | .andRR _ _ => .andRR
  | .orRK _ _ => .orRK | .orRR _ _ => .orRR
  | .cmpRK _ _ => .cmpRK | .cmpRR _ _ => .cmpRR
  | .movRK _ _ => .movRK | .movRR _ _ => .movRR
  | .loadK _ _ => .loadK | .loadR _ _ => .loadR
  | .storeK _ _ => .storeK | .storeR _ _ => .storeR
  | .notR _ => .notR | .shlR _ => .shlR | .shrR _ => .shrR
  | .jmp _ => .jmp | .jc _ => .jc | .jz _ => .jz
  | .call _ => .call | .ret => .ret

end Sys2Proof
end

