-- ==== Sys2Proof/WellFormed.lean ====
section
/-!
DEFINITION. What a well-formed parameter, program image and instruction are. An instruction's operands have exactly the
type of their field (R42), so no ill-formed instruction can be written down: the checks of this hardware fall on the opcode
map (R47), the program image (R5, D25), the call stack's depth (R5, D25) and, for assembly text, on the numbers an
operand is written with (R51, `Machine/Assembler.lean`).
-/

namespace Sys2Proof

/-- `OPCODE_MAP` is injective (R47). -/
def OpcodeMap.wf (m : OpcodeMap) : Bool :=
  Op.all.all fun a => Op.all.all fun b => m.code a != m.code b || a == b

/-- A program image is a sequence of 1 to 2048 words (R5, D25). -/
def imageWf (p : List IWord) : Bool := 1 ≤ p.length && p.length ≤ 2048

/-- The parameters are within the ranges of R5. -/
def Params.wf (p : Params) : Bool := p.opcodeMap.wf

/-- Every instruction is well formed: each operand has exactly its field's width (R42, R43). -/
def Instr.wf (_i : Instr) : Bool := true

end Sys2Proof
end

