-- ==== Sys2Proof/Decode.lean ====
section
/-!
DEFINITION. The encoding of instructions (spec 30_encoding.md R40 to R49): the default opcode map, the decoder, the encoder,
and the reader of a row of `spec/opcode_table.json`. The opcode map is an argument of both, as R47 asks.
-/

namespace Sys2Proof

/-- The spec's default `OPCODE_MAP` (R47): the opcode of the instruction in row n of the table is n.
DESIGN CHOICE of the spec (D1), unsafe for words of the reference hardware (log entry 1). -/
def defaultOpcodeMap : OpcodeMap :=
  #v[0, 1, 2, 3, 4, 5, 6, 7, 8, 9, 10, 11, 12, 13, 14, 15, 16, 17, 18, 19, 20, 21, 22, 23, 24]

/-! The fields of a word, driven from their bit positions for every word whatever its format (R43). -/

/-- `ir[15:11]` (R40). -/
def opcodeOf (ir : IWord) : Opcode := ir.extractLsb' 11 5

/-- `Ra = ir[10:8]` (R42). -/
def raOf (ir : IWord) : RegNum := ir.extractLsb' 8 3

/-- `Rb = ir[7:5]` (R42). -/
def rbOf (ir : IWord) : RegNum := ir.extractLsb' 5 3

/-- `K = ir[7:0]` (R42). -/
def kOf (ir : IWord) : Byte := ir.extractLsb' 0 8

/-- `PCK = ir[10:0]` (R42). -/
def pckOf (ir : IWord) : Addr := ir.extractLsb' 0 11

/-- The instruction a map gives an opcode to, if any (R47, R48). -/
def opOf (m : OpcodeMap) (c : Opcode) : Option Op := Op.all.find? fun o => m.code o == c

/-- The instruction `o` with the operands its format takes from the word; the unused bits are not looked at (R42, R49). -/
def instrOf (o : Op) (ir : IWord) : Instr :=
  match o with
  | .nop    => .nop
  | .addRK  => .addRK (raOf ir) (kOf ir)
  | .addRR  => .addRR (raOf ir) (rbOf ir)
  | .subRK  => .subRK (raOf ir) (kOf ir)
  | .subRR  => .subRR (raOf ir) (rbOf ir)
  | .andRK  => .andRK (raOf ir) (kOf ir)
  | .andRR  => .andRR (raOf ir) (rbOf ir)
  | .orRK   => .orRK (raOf ir) (kOf ir)
  | .orRR   => .orRR (raOf ir) (rbOf ir)
  | .cmpRK  => .cmpRK (raOf ir) (kOf ir)
  | .cmpRR  => .cmpRR (raOf ir) (rbOf ir)
  | .movRK  => .movRK (raOf ir) (kOf ir)
  | .movRR  => .movRR (raOf ir) (rbOf ir)
  | .loadK  => .loadK (raOf ir) (kOf ir)
  | .loadR  => .loadR (raOf ir) (rbOf ir)
  | .storeK => .storeK (raOf ir) (kOf ir)
  | .storeR => .storeR (raOf ir) (rbOf ir)
  | .notR   => .notR (raOf ir)
  | .shlR   => .shlR (raOf ir)
  | .shrR   => .shrR (raOf ir)
  | .jmp    => .jmp (pckOf ir)
  | .jc     => .jc (pckOf ir)
  | .jz     => .jz (pckOf ir)
  | .call   => .call (pckOf ir)
  | .ret    => .ret

/-- Why a word is no instruction: the only reason is an opcode that the map does not assign (R48). -/
inductive DecodeError where
  | undefinedOpcode (code : Opcode)
  deriving DecidableEq, Repr

/-- The decoder, total on all words (R46, R48). -/
def decode (m : OpcodeMap) (ir : IWord) : Except DecodeError Instr :=
  match opOf m (opcodeOf ir) with
  | some o => .ok (instrOf o ir)
  | none   => .error (.undefinedOpcode (opcodeOf ir))

/-! The ways to lay out a word (R42): `word = (opcode << 11) | field` (R47). An unused bit is written 0. -/

/-- `word = (opcode << 11) | field` (R47). -/
def wordOf (c : Opcode) (field : IWord) : IWord := (c.setWidth 16 <<< 11) ||| field

/-- Format RK: `field = (Ra << 8) | K`. -/
def wordRK (c : Opcode) (ra : RegNum) (k : Byte) : IWord := wordOf c ((ra.setWidth 16 <<< 8) ||| k.setWidth 16)

/-- Format RR: `field = (Ra << 8) | (Rb << 5)`. -/
def wordRR (c : Opcode) (ra rb : RegNum) : IWord := wordOf c ((ra.setWidth 16 <<< 8) ||| (rb.setWidth 16 <<< 5))

/-- Format R: `field = Ra << 8`. -/
def wordR (c : Opcode) (ra : RegNum) : IWord := wordOf c (ra.setWidth 16 <<< 8)

/-- Format A: `field = PCK`. -/
def wordA (c : Opcode) (pck : Addr) : IWord := wordOf c (pck.setWidth 16)

/-- Format N: `field = 0`. -/
def wordN (c : Opcode) : IWord := wordOf c 0

/-- The encoder: the word the assembler writes for an instruction (R42, R47). -/
def encode (m : OpcodeMap) (i : Instr) : IWord :=
  match i with
  | .nop          => wordN (m.code .nop)
  | .addRK ra k   => wordRK (m.code .addRK) ra k
  | .addRR ra rb  => wordRR (m.code .addRR) ra rb
  | .subRK ra k   => wordRK (m.code .subRK) ra k
  | .subRR ra rb  => wordRR (m.code .subRR) ra rb
  | .andRK ra k   => wordRK (m.code .andRK) ra k
  | .andRR ra rb  => wordRR (m.code .andRR) ra rb
  | .orRK ra k    => wordRK (m.code .orRK) ra k
  | .orRR ra rb   => wordRR (m.code .orRR) ra rb
  | .cmpRK ra k   => wordRK (m.code .cmpRK) ra k
  | .cmpRR ra rb  => wordRR (m.code .cmpRR) ra rb
  | .movRK ra k   => wordRK (m.code .movRK) ra k
  | .movRR ra rb  => wordRR (m.code .movRR) ra rb
  | .loadK ra k   => wordRK (m.code .loadK) ra k
  | .loadR ra rb  => wordRR (m.code .loadR) ra rb
  | .storeK ra k  => wordRK (m.code .storeK) ra k
  | .storeR ra rb => wordRR (m.code .storeR) ra rb
  | .notR ra      => wordR (m.code .notR) ra
  | .shlR ra      => wordR (m.code .shlR) ra
  | .shrR ra      => wordR (m.code .shrR) ra
  | .jmp pck      => wordA (m.code .jmp) pck
  | .jc pck       => wordA (m.code .jc) pck
  | .jz pck       => wordA (m.code .jz) pck
  | .call pck     => wordA (m.code .call) pck
  | .ret          => wordN (m.code .ret)

/-- The instruction read from a row of `spec/opcode_table.json` whose bits are `w`, under the default map. An
instruction is one 16-bit word (R40, R52), bit 0 its least significant bit (R6); bits above `nbits` are 0. -/
def decodeTableWord (nbits w : Nat) : Option Instr :=
  match decode defaultOpcodeMap (BitVec.ofNat 16 (w % 2 ^ nbits)) with
  | .ok i    => some i
  | .error _ => none

end Sys2Proof
end

