-- ==== Sys2Proof/Machine/Defaults.lean ====
section
/-!
DEFINITION. The spec's default values of the parameters that the source leaves open (spec 00_scope.md R5,
92_eei_decisions.md). They are the spec's own choices, not the source's (log entries 1, 2, 3, 5, 6 and 8): a statement over every
state holds for every value of the parameters, and only a run from `State.reset` uses these.
-/

namespace Sys2Proof.Machine

/-- The default parameters. DESIGN CHOICE of the spec: `OPCODE_MAP` (D1), `NOT_EXT = wide` (D3), `STACK_POLICY = fault`
(D4), `FLAG_RESET = (0, 0)` (D6), `REG_RESET = 0` (D7), and `BUS` plain memory (D11: no address is an I/O device's). -/
def defaultParams : Params where
  opcodeMap   := defaultOpcodeMap
  notExt      := .wide
  stackPolicy := .fault
  carryReset  := false
  zeroReset   := false
  regReset    := #v[0, 0, 0, 0, 0, 0, 0, 0]
  ioAddrs     := []

/-- The default `STACK_DEPTH` (R5, R23: "reference default 16"). -/
def defaultStackDepth : Nat := 16

/-- `STACK_INIT`: the call-stack entries at power-up, which the spec leaves unspecified (R25, R152, D8). DESIGN CHOICE:
every entry 0 (log entry 5, unsafe under `wrap` and `saturate`; under `fault` no such entry is ever read). -/
def defaultStackInit : List Addr := List.replicate defaultStackDepth 0

end Sys2Proof.Machine
end

