-- ==== Sys2Proof/Machine/State.lean ====
section
/-!
DEFINITION. The state of the TZR1 core (spec 10_state.md) with what the platform supplies to it (20_memory.md): plain data.
-/

namespace Sys2Proof.Machine

/-- The plain memory behind the data bus (R30, R38): the bytes that have been written, as address and byte pairs,
addresses strictly rising and below 256. An unlisted address holds no known value: nothing has written it. -/
abbrev Memory := List Host.Cell

/-- The stops of the model (R131). Each one is raised with nothing committed (R136). -/
inductive Fault where
  /-- Code 1. Raised by the step that fetches a word whose opcode the map does not assign (R48, R132). Safe: the hardware
  stays in the state before the step until reset. -/
  | undefinedOpcodeStall (pc : Addr) (ir : IWord)
  /-- Code 2. Raised by `CALL` on a full call stack under the policy `fault` (R60, R133). Safe: the hardware's
  behaviour is not known, and the model stops. -/
  | stackOverflow (pc : Addr)
  /-- Code 3. Raised by `RET` on an empty call stack under the policy `fault` (R61, R133). Safe, as the one before. -/
  | stackUnderflow (pc : Addr)
  /-- Code 4. Raised by the step whose `pc` is at or beyond the image's length (R134). Safe: the word the hardware
  would fetch is not known. -/
  | fetchOutsideImage (pc : Addr)
  deriving DecidableEq, Repr

/-- Refusals. Every instruction of the table has its meaning, so nothing raises one; the type is the interface's. -/
inductive Refusal where
  /-- Raised by `exec` for an instruction that has no meaning yet (there is none). Safe. -/
  | notModelled (mnemonic : String)
  deriving DecidableEq, Repr

/-- The state between two steps. -/
structure State where
  /-- The general registers `R0` to `R7` (R13). -/
  regs    : Vector Byte 8
  /-- The program counter (R18). -/
  pc      : Addr
  /-- The carry flag `C` (R20). -/
  carry   : Bool
  /-- The zero flag `Z` (R20). -/
  zero    : Bool
  /-- The call stack's entries `STK`; their number is `STACK_DEPTH` (R23, R24). -/
  stk     : List Addr
  /-- The stack pointer `SP`: the number of entries in use (R24). -/
  sp      : Nat
  /-- The input signal `reset`, at the level the outside world drives (R28, R150). -/
  resetIn : Bool
  /-- `PROGRAM`: the words of the instruction space, supplied by the platform, read-only (R5, R30). -/
  program : List IWord
  /-- The plain memory of the device behind the data bus (R38, D11). -/
  mem     : Memory
  /-- The data-bus transactions performed so far, newest first (R31 to R33): the MODEL's own record of the bus signals. -/
  busLog  : List BusTxn
  /-- The construction parameters (R5). -/
  params  : Params
  deriving DecidableEq, Repr

/-- The three outcomes of a step of this machine. -/
abbrev Result := Host.Outcome State Fault Refusal

/-- The initial state of a run (R29, R152, D20): the state after a reset step, with `reset` de-asserted, for any
parameters, any stack entries `STACK_INIT` and any program image; nothing has been written to the data memory and no bus
transaction performed. -/
def State.initial (p : Params) (stackInit : List Addr) (image : List IWord) : State where
  regs    := p.regReset
  pc      := 0
  carry   := p.carryReset
  zero    := p.zeroReset
  stk     := stackInit
  sp      := 0
  resetIn := false
  program := image
  mem     := []
  busLog  := []
  params  := p

/-- The machine right after reset with the spec's default parameters (log entries 1, 2, 3, 5, 6 and 8) and no program supplied yet: the
platform supplies it from outside (log entry 7). -/
def State.reset : State := State.initial defaultParams defaultStackInit []

end Sys2Proof.Machine
end

