-- ==== Sys2Proof/Machine/Ops.lean ====
section
/-!
DEFINITION. The named operations over the state: registers, flags, the program counter, the call stack, the data bus and its
memory, the instruction port, and the reset step. The hardware takes no exception and returns from none (spec
60_exceptions.md R130, R137); the one event that changes the course of a program is `reset` (R138), `resetStep` below, and
a stop is a `Fault`, raised with nothing committed (R136).
-/

namespace Sys2Proof.Machine

/-! ### Registers, flags and program counter -/

/-- A read port of the register file: always available, never fails (R15). -/
def readReg (s : State) (r : RegNum) : Byte := s.regs[r.toNat]'r.isLt

/-- The write port of the register file (R16). -/
def writeReg (s : State) (r : RegNum) (v : Byte) : State := { s with regs := s.regs.set r.toNat v r.isLt }

/-- Both flags are written together (R20). -/
def writeFlags (s : State) (c z : Bool) : State := { s with carry := c, zero := z }

/-- The status register `STATUS = {C, Z}`, for naming only (R22, D17). -/
def status (s : State) : BitVec 2 := BitVec.ofBool s.carry ++ BitVec.ofBool s.zero

/-- `pc <- target` (R62). -/
def setPc (s : State) (target : Addr) : State := { s with pc := target }

/-- `pc <- (pc + 1) mod 2048` (R19, R62). -/
def advance (s : State) : State := setPc s (s.pc + 1)

/-! ### The call stack -/

/-- `STACK_DEPTH`, the number of entries of the stack (R23, R24). -/
def stackDepth (s : State) : Nat := s.stk.length

/-- `STK[i]` (R24). The value beyond the last entry is never reached while `SP` is within its bounds (R24). -/
def stkAt (s : State) (i : Nat) : Addr := s.stk.getD i 0

/-- `Push(v)` under each `STACK_POLICY` (R60). -/
def push (v : Addr) (s : State) : Except Fault State :=
  match s.params.stackPolicy with
  | .fault =>
    if s.sp = stackDepth s then .error (.stackOverflow s.pc)
    else .ok { s with stk := s.stk.set s.sp v, sp := s.sp + 1 }
  | .wrap => .ok { s with stk := s.stk.set s.sp v, sp := (s.sp + 1) % stackDepth s }
  | .saturate =>
    if s.sp = stackDepth s then .ok s
    else .ok { s with stk := s.stk.set s.sp v, sp := s.sp + 1 }

/-- `Pop()` under each `STACK_POLICY` (R61): the address popped and the state after. -/
def pop (s : State) : Except Fault (Addr × State) :=
  match s.params.stackPolicy with
  | .fault =>
    if s.sp = 0 then .error (.stackUnderflow s.pc)
    else .ok (stkAt s (s.sp - 1), { s with sp := s.sp - 1 })
  | .wrap =>
    .ok (stkAt s ((s.sp + stackDepth s - 1) % stackDepth s),
      { s with sp := (s.sp + stackDepth s - 1) % stackDepth s })
  | .saturate =>
    if s.sp = 0 then .ok (stkAt s 0, s)
    else .ok (stkAt s (s.sp - 1), { s with sp := s.sp - 1 })

/-! ### The data memory and the data bus -/

/-- The byte that has been written to an address, if any. -/
def memRead : Memory → Nat → Option Byte
  | [], _ => none
  | (b, v) :: m, a => if a = b then some v else memRead m a

/-- Store a byte, keeping the addresses rising. -/
def memWrite : Memory → Nat → Byte → Memory
  | [], a, v => [(a, v)]
  | (b, w) :: m, a, v =>
    if a = b then (a, v) :: m
    else if a < b then (a, v) :: (b, w) :: m
    else (b, w) :: memWrite m a v

/-- The canonical form of a memory above a bound: addresses strictly rising, none below the bound, all below 256. -/
def memRising : Nat → Memory → Bool
  | _, [] => true
  | lo, (a, _) :: m => lo ≤ a && a < 256 && memRising (a + 1) m

/-- The canonical form of the data memory (R30: 256 addresses). -/
def Memory.wf (m : Memory) : Bool := memRising 0 m

/-- The platform gives the address to an I/O device (R37, D27). -/
def isIO (s : State) (a : Byte) : Bool := s.params.ioAddrs.contains a

/-- `data_in`: what the device answers to a read of `a` in this step (R31, R38). Plain memory answers the byte last
written; an I/O device, and a byte nothing has written, answer a FREE VALUE (log entry 4). -/
def dataIn (s : State) (a : Byte) : Byte :=
  if isIO s a then Config.deviceData s.busLog a
  else
    match memRead s.mem a.toNat with
    | some v => v
    | none   => Config.deviceData s.busLog a

/-- The read transaction of a load: `read = 1`, `address = a`, and the byte `v` comes in (R31). -/
def busRead (s : State) (a v : Byte) : State := { s with busLog := .read a v :: s.busLog }

/-- The write transaction of a store, `MemWrite(a, 1, v)`: plain memory holds the byte from the end of the step on; what
an I/O device does with it is the device's (R32, R36). -/
def busWrite (s : State) (a v : Byte) : State :=
  { s with
    busLog := .write a v :: s.busLog
    mem    := if isIO s a then s.mem else memWrite s.mem a.toNat v }

/-! ### The instruction port -/

/-- The output `iaddr` (R28, D18). -/
def iaddr (s : State) : Addr := s.pc

/-- `Fetch(pc)`: the word on `idata`, or the stop of R134. -/
def fetch (s : State) : Except Fault IWord :=
  match s.program[(iaddr s).toNat]? with
  | some ir => .ok ir
  | none    => .error (.fetchOutsideImage s.pc)

/-- Decode a fetched word, or the stop of R132. -/
def decodeFetched (s : State) (ir : IWord) : Except Fault Instr :=
  match decode s.params.opcodeMap ir with
  | .ok i    => .ok i
  | .error _ => .error (.undefinedOpcodeStall s.pc ir)

/-- A program image with the word `w` at address `n`; an image too short for it is filled up with words 0. -/
def placeWord : List IWord → Nat → IWord → List IWord
  | [],     0,     w => [w]
  | _ :: p, 0,     w => w :: p
  | [],     n + 1, w => 0 :: placeWord [] n w
  | x :: p, n + 1, w => x :: placeWord p n w

/-! ### Reset -/

/-- `ResetStep()`: a step with `reset` asserted (R29, R150). The stack's entries are unchanged, no bus transaction is
performed, and the word at `pc` is not executed. -/
def resetStep (s : State) : State :=
  { s with
    pc    := 0
    sp    := 0
    carry := s.params.carryReset
    zero  := s.params.zeroReset
    regs  := s.params.regReset }

end Sys2Proof.Machine
end

