-- ==== Sys2Proof/Machine/Operands.lean ====
section
/-!
DEFINITION. The operand and write-back muxes (spec 40_core_cycle.md R58, R59). Operand A is always read port A; operand 2 is
the literal or read port B, and it is also the data-bus address.
-/

namespace Sys2Proof.Machine

/-- `mux_operand_select` (R44): the literal `K`, or the register `Rb`. -/
inductive OperandSel where
  | lit
  | reg
  deriving DecidableEq, Repr

/-- `mux_writeback_select` (R44): the ALU's result, or the bus's `data_in`. -/
inductive WritebackSel where
  | alu
  | mem
  deriving DecidableEq, Repr

/-- The operand mux: `op2 = (mux_operand_select == LIT) ? K : x[addr_b]` (R58). -/
def operand2 (sel : OperandSel) (k : Byte) (rb : RegNum) (s : State) : Byte :=
  match sel with
  | .lit => k
  | .reg => readReg s rb

/-- The write-back mux (R59). -/
def writeback (sel : WritebackSel) (result din : Byte) : Byte :=
  match sel with
  | .alu => result
  | .mem => din

end Sys2Proof.Machine
end

