-- ==== Sys2Proof/Machine/Flags.lean ====
section
/-!
DEFINITION. The ALU and its flags (spec 40_core_cycle.md R54 to R57): nine functions on 8-bit operands, computed in one extra
bit; the carry is bit 8 of the extended result for every function, and the zero flag is taken from all nine bits.
-/

namespace Sys2Proof.Machine

/-- The nine ALU functions (R54). -/
inductive AluFn where
  | add | sub | passA | passB | and | or | not | shl | shr
  deriving DecidableEq, Repr

/-- `zext_9` (R7, R55). -/
def zext9 (v : Byte) : Ext := v.setWidth 9

/-- The 9-bit function `F9` (R56), all arithmetic modulo 512. `NOT` depends on the parameter `NOT_EXT` (D3, C6). -/
def f9 (ne : NotExt) (f : AluFn) (ea eb : Ext) : Ext :=
  match f with
  | .add   => ea + eb
  | .sub   => ea - eb
  | .passA => ea
  | .passB => eb
  | .and   => ea &&& eb
  | .or    => ea ||| eb
  | .not   =>
    match ne with
    | .wide   => ~~~ea
    | .narrow => zext9 (~~~(ea.setWidth 8))
  | .shl   => ea <<< 1
  | .shr   => ea >>> 1

/-- What the ALU puts out: an 8-bit result and the 2-bit status (R54). -/
structure AluOut where
  result : Byte
  carry  : Bool
  zero   : Bool
  deriving DecidableEq, Repr

/-- Result and flags of an extended result (R55): the carry is its bit 8, the zero flag is true when all 9 bits are 0. -/
def aluOut (ext : Ext) : AluOut where
  result := ext.setWidth 8
  carry  := ext.getLsbD 8
  zero   := ext == 0

/-- The ALU (R54, R55): both operands are zero-extended to 9 bits. -/
def alu (ne : NotExt) (f : AluFn) (a b : Byte) : AluOut := aluOut (f9 ne f (zext9 a) (zext9 b))

end Sys2Proof.Machine
end

