-- ==== Sys2Proof/Machine/Alu.lean ====
section
/-!
DEFINITION. The fifteen ALU instructions (spec 41_alu_instructions.md R70 to R84). Each writes both flags and advances `pc`;
none touches the data bus or the call stack, and none can stop.
-/

namespace Sys2Proof.Machine

/-- The step of an ALU instruction that writes `x[Ra]`: `ALU(f, x[Ra], op2)`, its result to `x[Ra]`, its flags to
`(C, Z)`, `pc + 1`. Both operands are read before anything is written (R17). -/
def aluToReg (f : AluFn) (ra : RegNum) (op2 : Byte) (s : State) : State :=
  let r := alu s.params.notExt f (readReg s ra) op2
  advance (writeFlags (writeReg s ra r.result) r.carry r.zero)

/-- The step of a compare: the flags of `ALU(f, x[Ra], op2)`, no write-back, `pc + 1`. -/
def aluToFlags (f : AluFn) (ra : RegNum) (op2 : Byte) (s : State) : State :=
  let r := alu s.params.notExt f (readReg s ra) op2
  advance (writeFlags s r.carry r.zero)

/-- `ADD Ra,K` (R70). -/
def execAddRK (ra : RegNum) (k : Byte) (s : State) : Result := .next (aluToReg .add ra k s)

/-- `ADD Ra,Rb` (R71). -/
def execAddRR (ra rb : RegNum) (s : State) : Result := .next (aluToReg .add ra (readReg s rb) s)

/-- `AND Ra,K` (R72). -/
def execAndRK (ra : RegNum) (k : Byte) (s : State) : Result := .next (aluToReg .and ra k s)

/-- `AND Ra,Rb` (R73). -/
def execAndRR (ra rb : RegNum) (s : State) : Result := .next (aluToReg .and ra (readReg s rb) s)

/-- `OR Ra,K` (R74). -/
def execOrRK (ra : RegNum) (k : Byte) (s : State) : Result := .next (aluToReg .or ra k s)

/-- `OR Ra,Rb` (R75). -/
def execOrRR (ra rb : RegNum) (s : State) : Result := .next (aluToReg .or ra (readReg s rb) s)

/-- `SUB Ra,K` (R76): the carry is a borrow. -/
def execSubRK (ra : RegNum) (k : Byte) (s : State) : Result := .next (aluToReg .sub ra k s)

/-- `SUB Ra,Rb` (R77). -/
def execSubRR (ra rb : RegNum) (s : State) : Result := .next (aluToReg .sub ra (readReg s rb) s)

/-- `CMP Ra,K` (R78): the flags of `SUB`, no write-back. That the function is `SUB` is the spec's reading (D28, G1). -/
def execCmpRK (ra : RegNum) (k : Byte) (s : State) : Result := .next (aluToFlags .sub ra k s)

/-- `CMP Ra,Rb` (R79). -/
def execCmpRR (ra rb : RegNum) (s : State) : Result := .next (aluToFlags .sub ra (readReg s rb) s)

/-- `MOV Ra,K` (R80): through the ALU, so it writes the flags. -/
def execMovRK (ra : RegNum) (k : Byte) (s : State) : Result := .next (aluToReg .passB ra k s)

/-- `MOV Ra,Rb` (R81). -/
def execMovRR (ra rb : RegNum) (s : State) : Result := .next (aluToReg .passB ra (readReg s rb) s)

/-- `NOT Ra` (R82): the flags depend on `NOT_EXT`. Operand 2 has no effect (R54), here and in the shifts. -/
def execNotR (ra : RegNum) (s : State) : Result := .next (aluToReg .not ra 0 s)

/-- `SHL Ra` (R83). -/
def execShlR (ra : RegNum) (s : State) : Result := .next (aluToReg .shl ra 0 s)

/-- `SHR Ra` (R84). -/
def execShrR (ra : RegNum) (s : State) : Result := .next (aluToReg .shr ra 0 s)

end Sys2Proof.Machine
end

