-- ==== Sys2Proof/Machine/ControlTransfer.lean ====
section
/-!
DEFINITION. The six control instructions (spec 43_control_transfer.md R110 to R115): no register, flag or data-bus access;
targets are absolute, and a transfer takes effect at the end of its own step.
-/

namespace Sys2Proof.Machine

/-- The step of a conditional jump: to the target when the flag is set, else `pc + 1`. -/
def jumpIf (flag : Bool) (pck : Addr) (s : State) : State := if flag then setPc s pck else advance s

/-- `JMP PCK` (R110). -/
def execJmp (pck : Addr) (s : State) : Result := .next (setPc s pck)

/-- `JC PCK` (R111). -/
def execJc (pck : Addr) (s : State) : Result := .next (jumpIf s.carry pck s)

/-- `JZ PCK` (R112). -/
def execJz (pck : Addr) (s : State) : Result := .next (jumpIf s.zero pck s)

/-- `CALL PCK` (R113): `Push((pc + 1) mod 2048)`, which may stop, then `pc <- PCK`. -/
def execCall (pck : Addr) (s : State) : Result :=
  match push (s.pc + 1) s with
  | .ok t    => .next (setPc t pck)
  | .error f => .fault f

/-- `RET` (R114): `pc <- Pop()`, which may stop. -/
def execRet (s : State) : Result :=
  match pop s with
  | .ok (target, t) => .next (setPc t target)
  | .error f        => .fault f

/-- `NOP` (R115). -/
def execNop (s : State) : Result := .next (advance s)

end Sys2Proof.Machine
end

