-- ==== Sys2Proof/Machine/LoadStore.lean ====
section
/-!
DEFINITION. The four memory instructions (spec 42_load_store.md R100 to R104): one bus transaction each, no flag read or
written, `pc + 1`.
-/

namespace Sys2Proof.Machine

/-- The step of a load from `a` into `x[Ra]` (R31): one read transaction, and the byte that came in goes to `x[Ra]`. -/
def loadFrom (ra : RegNum) (a : Byte) (s : State) : State :=
  advance (writeReg (busRead s a (dataIn s a)) ra (dataIn s a))

/-- The step of a store of `x[Ra]` to `a` (R32): one write transaction of the ALU's pass-through of read port A; the flags
of that evaluation are discarded. -/
def storeTo (ra : RegNum) (a : Byte) (s : State) : State :=
  advance (busWrite s a (alu s.params.notExt .passA (readReg s ra) a).result)

/-- `MOV Ra,[K]` (R100). -/
def execLoadK (ra : RegNum) (k : Byte) (s : State) : Result := .next (loadFrom ra k s)

/-- `MOV Ra,[Rb]` (R101): the address is `x[Rb]` before the step. -/
def execLoadR (ra rb : RegNum) (s : State) : Result := .next (loadFrom ra (readReg s rb) s)

/-- `MOV [K],Ra` (R102). -/
def execStoreK (ra : RegNum) (k : Byte) (s : State) : Result := .next (storeTo ra k s)

/-- `MOV [Rb],Ra` (R103). -/
def execStoreR (ra rb : RegNum) (s : State) : Result := .next (storeTo ra (readReg s rb) s)

end Sys2Proof.Machine
end

