-- ==== Sys2Proof/Machine/Dispatch.lean ====
section
/-!
DEFINITION. The dispatch: one arm per constructor of `Instr`, in the order of `spec/opcode_table.json`.
-/

namespace Sys2Proof.Machine

def exec (i : Instr) (s : State) : Host.Outcome State Fault Refusal :=
  match i with
  | .nop => Sys2Proof.Machine.execNop s
  | .addRK ra k => Sys2Proof.Machine.execAddRK ra k s
  | .addRR ra rb => Sys2Proof.Machine.execAddRR ra rb s
  | .subRK ra k => Sys2Proof.Machine.execSubRK ra k s
  | .subRR ra rb => Sys2Proof.Machine.execSubRR ra rb s
  | .andRK ra k => Sys2Proof.Machine.execAndRK ra k s
  | .andRR ra rb => Sys2Proof.Machine.execAndRR ra rb s
  | .orRK ra k => Sys2Proof.Machine.execOrRK ra k s
  | .orRR ra rb => Sys2Proof.Machine.execOrRR ra rb s
  | .cmpRK ra k => Sys2Proof.Machine.execCmpRK ra k s
  | .cmpRR ra rb => Sys2Proof.Machine.execCmpRR ra rb s
  | .movRK ra k => Sys2Proof.Machine.execMovRK ra k s
  | .movRR ra rb => Sys2Proof.Machine.execMovRR ra rb s
  | .loadK ra k => Sys2Proof.Machine.execLoadK ra k s
  | .loadR ra rb => Sys2Proof.Machine.execLoadR ra rb s
  | .storeK ra k => Sys2Proof.Machine.execStoreK ra k s
  | .storeR ra rb => Sys2Proof.Machine.execStoreR ra rb s
  | .notR ra => Sys2Proof.Machine.execNotR ra s
  | .shlR ra => Sys2Proof.Machine.execShlR ra s
  | .shrR ra => Sys2Proof.Machine.execShrR ra s
  | .jmp pck => Sys2Proof.Machine.execJmp pck s
  | .jc pck => Sys2Proof.Machine.execJc pck s
  | .jz pck => Sys2Proof.Machine.execJz pck s
  | .call pck => Sys2Proof.Machine.execCall pck s
  | .ret => Sys2Proof.Machine.execRet s

end Sys2Proof.Machine
end

