-- ==== Sys2Proof/Machine/Step.lean ====
section
/-!
DEFINITION. One step of the core (spec 40_core_cycle.md R63, R66; priority R135): a reset step while `reset` is asserted,
else fetch, decode and execute.
-/

namespace Sys2Proof.Machine

/-- One clock edge (R53). -/
def step (s : State) : Host.Outcome State Fault Refusal :=
  if s.resetIn then .next (resetStep s)
  else
    match fetch s with
    | .error f => .fault f
    | .ok ir =>
      match decodeFetched s ir with
      | .error f => .fault f
      | .ok i    => exec i s

/-- `s` with the instruction whose bits are `w` in the program image at the address the next step fetches (log entry 7).
An instruction is one word (R40). `reset` is de-asserted, since a reset step executes nothing (R151); nothing else changes. -/
def State.withFetchWord (s : State) (nbits w : Nat) : State :=
  { s with
    program := placeWord s.program (iaddr s).toNat (BitVec.ofNat 16 (w % 2 ^ nbits))
    resetIn := false }

end Sys2Proof.Machine
end

