-- ==== Sys2Proof/Machine/Assembler.lean ====
section
/-!
DEFINITION. The assembler's input grammar (spec 30_encoding.md R50, R51): from a line `[label:] op [arg1[, arg2]] [#comment]`,
already cut into its parts (the lexer and the parser are out of scope, R4), to the instruction, and from a program's lines
to its image. A number outside its field's range is refused, never truncated.
-/

namespace Sys2Proof.Machine

/-- The mnemonics of the grammar (R51). -/
inductive AsmOp where
  | add | and | or | sub | cmp | mov | not | shl | shr | jmp | jc | jz | call | ret | nop
  deriving DecidableEq, Repr

/-- An operand as it is written (R51): `Rn`, a number, `[K]`, `[Rn]`, or a label. -/
inductive AsmArg where
  | reg (n : Nat)
  | num (n : Nat)
  | mem (n : Nat)
  | memReg (n : Nat)
  | label (name : String)
  deriving DecidableEq, Repr

/-- A line of assembly text (R50). The comment has no effect. -/
structure AsmLine where
  label   : Option String := none
  op      : AsmOp
  args    : List AsmArg := []
  comment : Option String := none
  deriving DecidableEq, Repr

/-- Registers are `R0` to `R7` (R51). -/
def regField (n : Nat) : Option RegNum := if n < 8 then some (BitVec.ofNat 3 n) else none

/-- A literal is a number from 0 to 255 (R51). -/
def kField (n : Nat) : Option Byte := if n < 256 then some (BitVec.ofNat 8 n) else none

/-- A target is a number from 0 to 2047 (R51). -/
def pckField (n : Nat) : Option Addr := if n < 2048 then some (BitVec.ofNat 11 n) else none

/-- A target operand: a number, or a label that the program defines (R51). -/
def targetField (labels : String → Option Nat) : AsmArg → Option Addr
  | .num n      => pckField n
  | .label name => (labels name).bind pckField
  | _           => none

/-- An instruction with a register and a literal. -/
def withRK (f : RegNum → Byte → Instr) (n k : Nat) : Option Instr :=
  (regField n).bind fun ra => (kField k).map fun k => f ra k

/-- An instruction with two registers. -/
def withRR (f : RegNum → RegNum → Instr) (n m : Nat) : Option Instr :=
  (regField n).bind fun ra => (regField m).map fun rb => f ra rb

/-- The operand shapes of R51. The MOV forms are told apart by the shapes alone; anything else is refused (I20). -/
def asmInstr (labels : String → Option Nat) (op : AsmOp) (args : List AsmArg) : Option Instr :=
  match op, args with
  | .add,  [.reg n, .num k]    => withRK .addRK n k
  | .add,  [.reg n, .reg m]    => withRR .addRR n m
  | .and,  [.reg n, .num k]    => withRK .andRK n k
  | .and,  [.reg n, .reg m]    => withRR .andRR n m
  | .or,   [.reg n, .num k]    => withRK .orRK n k
  | .or,   [.reg n, .reg m]    => withRR .orRR n m
  | .sub,  [.reg n, .num k]    => withRK .subRK n k
  | .sub,  [.reg n, .reg m]    => withRR .subRR n m
  | .cmp,  [.reg n, .num k]    => withRK .cmpRK n k
  | .cmp,  [.reg n, .reg m]    => withRR .cmpRR n m
  | .mov,  [.reg n, .num k]    => withRK .movRK n k
  | .mov,  [.reg n, .reg m]    => withRR .movRR n m
  | .mov,  [.reg n, .mem k]    => withRK .loadK n k
  | .mov,  [.reg n, .memReg m] => withRR .loadR n m
  | .mov,  [.mem k, .reg n]    => withRK .storeK n k
  | .mov,  [.memReg m, .reg n] => withRR .storeR n m
  | .not,  [.reg n]            => (regField n).map .notR
  | .shl,  [.reg n]            => (regField n).map .shlR
  | .shr,  [.reg n]            => (regField n).map .shrR
  | .jmp,  [t]                 => (targetField labels t).map .jmp
  | .jc,   [t]                 => (targetField labels t).map .jc
  | .jz,   [t]                 => (targetField labels t).map .jz
  | .call, [t]                 => (targetField labels t).map .call
  | .ret,  []                  => some .ret
  | .nop,  []                  => some .nop
  | _, _                       => none

/-- The text of an instruction, in the operand order of R51: a store writes its register second. -/
def asmText : Instr → AsmOp × List AsmArg
  | .nop          => (.nop, [])
  | .addRK ra k   => (.add, [.reg ra.toNat, .num k.toNat])
  | .addRR ra rb  => (.add, [.reg ra.toNat, .reg rb.toNat])
  | .subRK ra k   => (.sub, [.reg ra.toNat, .num k.toNat])
  | .subRR ra rb  => (.sub, [.reg ra.toNat, .reg rb.toNat])
  | .andRK ra k   => (.and, [.reg ra.toNat, .num k.toNat])
  | .andRR ra rb  => (.and, [.reg ra.toNat, .reg rb.toNat])
  | .orRK ra k    => (.or, [.reg ra.toNat, .num k.toNat])
  | .orRR ra rb   => (.or, [.reg ra.toNat, .reg rb.toNat])
  | .cmpRK ra k   => (.cmp, [.reg ra.toNat, .num k.toNat])
  | .cmpRR ra rb  => (.cmp, [.reg ra.toNat, .reg rb.toNat])
  | .movRK ra k   => (.mov, [.reg ra.toNat, .num k.toNat])
  | .movRR ra rb  => (.mov, [.reg ra.toNat, .reg rb.toNat])
  | .loadK ra k   => (.mov, [.reg ra.toNat, .mem k.toNat])
  | .loadR ra rb  => (.mov, [.reg ra.toNat, .memReg rb.toNat])
  | .storeK ra k  => (.mov, [.mem k.toNat, .reg ra.toNat])
  | .storeR ra rb => (.mov, [.memReg rb.toNat, .reg ra.toNat])
  | .notR ra      => (.not, [.reg ra.toNat])
  | .shlR ra      => (.shl, [.reg ra.toNat])
  | .shrR ra      => (.shr, [.reg ra.toNat])
  | .jmp pck      => (.jmp, [.num pck.toNat])
  | .jc pck       => (.jc, [.num pck.toNat])
  | .jz pck       => (.jz, [.num pck.toNat])
  | .call pck     => (.call, [.num pck.toNat])
  | .ret          => (.ret, [])

/-- "A label names the address of the instruction on its line" (R50); each line holds one instruction, one word long. -/
def labelAddr (lines : List AsmLine) (name : String) : Option Nat :=
  lines.findIdx? fun l => l.label == some name

/-- A program's image: every line assembled with the program's labels. A label that two lines define is refused
(DESIGN CHOICE, log entry 10), and so is a program that is no image (R5, I22). -/
def assemble (m : OpcodeMap) (lines : List AsmLine) : Option (List IWord) :=
  if (lines.filterMap (·.label)).Nodup then
    match lines.mapM fun l => asmInstr (labelAddr lines) l.op l.args with
    | some is => if imageWf (is.map (encode m)) then some (is.map (encode m)) else none
    | none    => none
  else none

end Sys2Proof.Machine
end

