-- ==== Sys2Proof/Machine/Datapath.lean ====
section
/-!
DEFINITION. The core as the spec composes it from its components (spec 30_encoding.md R44 to R46, 40_core_cycle.md R53, R58,
R59, R62, R63): the decoder's ControlWord and the datapath it controls. It is a second description of the step, next to the
meanings that `exec` dispatches to; an obligation states that the two agree.
-/

namespace Sys2Proof.Machine

/-- The decoder's output (R44). `none` is a signal whose value has no effect for the instruction (`-` in R45). -/
structure ControlWord where
  addrA             : RegNum
  addrB             : RegNum
  k                 : Byte
  pck               : Addr
  aluFunction       : Option AluFn
  operandSelect     : Option OperandSel
  writebackSelect   : Option WritebackSel
  registerWrite     : Bool
  statusUpdate      : Bool
  memoryRead        : Bool
  memoryWrite       : Bool
  jmp               : Bool
  call              : Bool
  ret               : Bool
  pcIncrement       : Bool
  deriving DecidableEq, Repr

/-- A ControlWord with the fields that every word drives (R43) and the signals of a row of the decoder table. -/
def row (ir : IWord) (f : Option AluFn) (o : Option OperandSel) (w : Option WritebackSel)
    (regWe statusEn memRd memWr jmp call ret pcInc : Bool) : ControlWord where
  addrA           := raOf ir
  addrB           := rbOf ir
  k               := kOf ir
  pck             := pckOf ir
  aluFunction     := f
  operandSelect   := o
  writebackSelect := w
  registerWrite   := regWe
  statusUpdate    := statusEn
  memoryRead      := memRd
  memoryWrite     := memWr
  jmp             := jmp
  call            := call
  ret             := ret
  pcIncrement     := pcInc

/-- The decoder table, in the order of R45: ALU function, operand, write-back, then the enables and strobes reg_we,
status_en, mem_read, mem_write, jmp, call, ret, pc_inc. `none` is the last row, an undefined opcode. -/
def decoderTable (o : Option Op) (ir : IWord) (c z : Bool) : ControlWord :=
  match o with
  | some .addRK  => row ir (some .add)   (some .lit) (some .alu) true  true  false false false false false true
  | some .addRR  => row ir (some .add)   (some .reg) (some .alu) true  true  false false false false false true
  | some .andRK  => row ir (some .and)   (some .lit) (some .alu) true  true  false false false false false true
  | some .andRR  => row ir (some .and)   (some .reg) (some .alu) true  true  false false false false false true
  | some .orRK   => row ir (some .or)    (some .lit) (some .alu) true  true  false false false false false true
  | some .orRR   => row ir (some .or)    (some .reg) (some .alu) true  true  false false false false false true
  | some .subRK  => row ir (some .sub)   (some .lit) (some .alu) true  true  false false false false false true
  | some .subRR  => row ir (some .sub)   (some .reg) (some .alu) true  true  false false false false false true
  | some .cmpRK  => row ir (some .sub)   (some .lit) none        false true  false false false false false true
  | some .cmpRR  => row ir (some .sub)   (some .reg) none        false true  false false false false false true
  | some .movRK  => row ir (some .passB) (some .lit) (some .alu) true  true  false false false false false true
  | some .movRR  => row ir (some .passB) (some .reg) (some .alu) true  true  false false false false false true
  | some .notR   => row ir (some .not)   none        (some .alu) true  true  false false false false false true
  | some .shlR   => row ir (some .shl)   none        (some .alu) true  true  false false false false false true
  | some .shrR   => row ir (some .shr)   none        (some .alu) true  true  false false false false false true
  | some .loadK  => row ir none          (some .lit) (some .mem) true  false true  false false false false true
  | some .loadR  => row ir none          (some .reg) (some .mem) true  false true  false false false false true
  | some .storeK => row ir (some .passA) (some .lit) none        false false false true  false false false true
  | some .storeR => row ir (some .passA) (some .reg) none        false false false true  false false false true
  | some .jmp    => row ir none          none        none        false false false false true  false false false
  | some .jc     => row ir none          none        none        false false false false c     false false (!c)
  | some .jz     => row ir none          none        none        false false false false z     false false (!z)
  | some .call   => row ir none          none        none        false false false false false true  false false
  | some .ret    => row ir none          none        none        false false false false false false true  false
  | some .nop    => row ir none          none        none        false false false false false false false true
  | none         => row ir none          none        none        false false false false false false false false

/-- `decode(ir, C, Z) -> ControlWord` (R46, C2). -/
def controlWord (m : OpcodeMap) (ir : IWord) (c z : Bool) : ControlWord :=
  decoderTable (opOf m (opcodeOf ir)) ir c z

/-- Values for the signals that the decoder table leaves unspecified (D23): any will do. -/
structure DontCare where
  aluFunction     : AluFn
  operandSelect   : OperandSel
  writebackSelect : WritebackSel
  deriving DecidableEq, Repr

/-- Next-pc selection, in the source's priority (R62). -/
def nextPc (cw : ControlWord) (s : State) : Result :=
  if cw.ret then
    match pop s with
    | .ok (target, t) => .next (setPc t target)
    | .error f        => .fault f
  else if cw.call then
    match push (s.pc + 1) s with
    | .ok t    => .next (setPc t cw.pck)
    | .error f => .fault f
  else if cw.jmp then .next (setPc s cw.pck)
  else if cw.pcIncrement then .next (advance s)
  else .next s

/-- The datapath of one step under a ControlWord (R58, R59, R63): the operands and the ALU, the bus transaction, then the
commit. Every value is computed from the state before the step (R53). -/
def datapath (d : DontCare) (cw : ControlWord) (s : State) : Result :=
  let a   := readReg s cw.addrA
  let op2 := operand2 (cw.operandSelect.getD d.operandSelect) cw.k cw.addrB s
  let r   := alu s.params.notExt (cw.aluFunction.getD d.aluFunction) a op2
  let din := dataIn s op2
  let s1  := if cw.memoryRead then busRead s op2 din else s
  let s2  := if cw.memoryWrite then busWrite s1 op2 r.result else s1
  let s3  := if cw.registerWrite
             then writeReg s2 cw.addrA (writeback (cw.writebackSelect.getD d.writebackSelect) r.result din) else s2
  let s4  := if cw.statusUpdate then writeFlags s3 r.carry r.zero else s3
  nextPc cw s4

/-- `Step()` of R63, with `reset` not asserted. -/
def coreCycle (d : DontCare) (s : State) : Result :=
  match fetch s with
  | .error f => .fault f
  | .ok ir =>
    match opOf s.params.opcodeMap (opcodeOf ir) with
    | none   => .fault (.undefinedOpcodeStall s.pc ir)
    | some _ => datapath d (controlWord s.params.opcodeMap ir s.carry s.zero) s

end Sys2Proof.Machine
end

