-- ==== Sys2Proof/Safety.lean ====
section
/-!
DEFINITION. What a run of the core is and what a sound state is, in the terms that claims use: the invariant of the spec's
bounds (10_state.md R24, 00_scope.md R5), the end of a run (70_reset_and_hazards.md R158) and its stops (60_exceptions.md
R131, R136).
-/

namespace Sys2Proof.Machine

/-- A sound state: the call stack has at least one entry and its pointer is within the bounds of its policy (R5, R24), the
opcode map is injective (R47), the image fits the instruction space (R5), and the data memory has its canonical form. -/
structure Inv (s : State) : Prop where
  depth   : 1 ≤ stackDepth s
  sp      : s.sp ≤ stackDepth s
  spWrap  : s.params.stackPolicy = .wrap → s.sp < stackDepth s
  params  : s.params.wf = true
  program : s.program.length ≤ 2048
  mem     : Memory.wf s.mem = true

/-- How a run of at most `n` steps stands (R158): it has ended at an address of `END_PCS`, before that step executes; it
stands in a stop, in the state before the offending instruction (R136); or it is still running. -/
inductive RunState where
  | ended (s : State)
  | stopped (f : Fault) (s : State)
  | refused (r : Refusal) (s : State)
  | running (s : State)
  deriving DecidableEq, Repr

/-- Run for at most `n` steps, given the set `END_PCS` (R158, D21). -/
def runTo (endPcs : List Addr) : Nat → State → RunState
  | 0,     s => if endPcs.contains s.pc then .ended s else .running s
  | n + 1, s =>
    if endPcs.contains s.pc then .ended s
    else
      match step s with
      | .next t    => runTo endPcs n t
      | .fault f   => .stopped f s
      | .refused r => .refused r s

end Sys2Proof.Machine
end

