-- ==== Sys2Proof/Certificates/Slice0/Obligations.lean ====
section
/-!
DEFINITION. The statements about the TZR1 model that the provers are asked to settle. Each docstring names the rule of the
spec it formalises. A statement over every state holds for every value of the construction parameters (R5), which `State`
carries; where one rests on a choice of the model, its docstring says so.
-/

namespace Sys2Proof.Claims

open Sys2Proof.Machine

/-- `s` after an ALU instruction with destination `ra`: `v` in `x[ra]`, the flags `(c, z)`, `pc + 1`, and nothing else
changed: no other register, no byte of the data memory, no bus transaction, no stack entry. -/
def wrote (s : State) (ra : RegNum) (v : Byte) (c z : Bool) : State :=
  { s with regs := s.regs.set ra.toNat v ra.isLt, carry := c, zero := z, pc := s.pc + 1 }

/-- `i` is what the decoder reads, under every opcode map, from the word whose layout is given with the map's opcode for `i`,
and what the assembler makes of the text `op args`: the lines "Encoding" and "Operands" of the instruction rules (R10). -/
def spelled (i : Instr) (layout : Opcode → IWord) (op : AsmOp) (args : List AsmArg) : Prop :=
  (∀ m : OpcodeMap, m.wf = true → decode m (layout (m.code i.op)) = .ok i) ∧ ∀ labels, asmInstr labels op args = some i

/-- The register an instruction writes, if any: `x[Ra]` for the ALU instructions with a write-back and the loads (the
column reg_we of R45). -/
def destination : Instr → Option RegNum
  | .addRK ra _ | .addRR ra _ | .subRK ra _ | .subRR ra _ | .andRK ra _ | .andRR ra _ | .orRK ra _ | .orRR ra _
  | .movRK ra _ | .movRR ra _ | .notR ra | .shlR ra | .shrR ra | .loadK ra _ | .loadR ra _ => some ra
  | .cmpRK _ _ | .cmpRR _ _ | .storeK _ _ | .storeR _ _ | .jmp _ | .jc _ | .jz _ | .call _ | .ret | .nop => none

/-- The instructions that write C and Z (the first row of R21). -/
def writesFlags : Instr → Bool
  | .addRK _ _ | .addRR _ _ | .subRK _ _ | .subRR _ _ | .andRK _ _ | .andRR _ _ | .orRK _ _ | .orRR _ _
  | .cmpRK _ _ | .cmpRR _ _ | .movRK _ _ | .movRR _ _ | .notR _ | .shlR _ | .shrR _ => true
  | .loadK _ _ | .loadR _ _ | .storeK _ _ | .storeR _ _ | .jmp _ | .jc _ | .jz _ | .call _ | .ret | .nop => false

/-- The instructions that read a flag: JC reads C, JZ reads Z (R21). -/
def readsFlags : Instr → Bool
  | .jc _ | .jz _ => true
  | _ => false

/-- The bits of a word that an instruction's format uses (R42): all of them in RK and A, not `ir[4:0]` in RR, not
`ir[7:0]` in R, not `ir[10:0]` in N. -/
def usedBits : Op → IWord
  | .addRR | .subRR | .andRR | .orRR | .cmpRR | .movRR | .loadR | .storeR => 0xFFE0
  | .notR | .shlR | .shrR => 0xFF00
  | .ret | .nop => 0xF800
  | _ => 0xFFFF

/-- The address that a load reads: the operand-2 mux output, `K` or `x[Rb]` before the step (R31). -/
def loadAddr (s : State) : Instr → Option Byte
  | .loadK _ k => some k
  | .loadR _ rb => some (readReg s rb)
  | _ => none

/-- The address a store writes and the byte it writes there, both taken before the step (R32). -/
def storeWrite (s : State) : Instr → Option (Byte × Byte)
  | .storeK ra k => some (k, readReg s ra)
  | .storeR ra rb => some (readReg s rb, readReg s ra)
  | _ => none

/-- Executing the instructions of the list in turn leads from `s` to `t`, and none of them stores at `a`. -/
def runsWithoutStoringAt (a : Byte) : List Instr → State → State → Prop
  | [], s, t => t = s
  | i :: rest, s, t =>
    (∀ v, storeWrite s i ≠ some (a, v)) ∧ ∃ u, exec i s = .next u ∧ runsWithoutStoringAt a rest u t

/-- Execute a `CALL` to each target in turn, stopping at the first stop. -/
def runCalls : List Addr → State → Result
  | [], s => .next s
  | pck :: rest, s =>
    match exec (.call pck) s with
    | .next t => runCalls rest t
    | .fault f => .fault f
    | .refused r => .refused r

/-- The first `k` states of the run from `s` have no `pc` in `END_PCS` (R158). -/
def noEndBefore (endPcs : List Addr) (k : Nat) (s : State) : Prop :=
  ∀ j u, j < k → Sys2Proof.core.run j s = .next u → u.pc ∉ endPcs

/-- The `pc` a stop records (R131). -/
def faultPc : Fault → Addr
  | .undefinedOpcodeStall pc _ => pc
  | .stackOverflow pc => pc
  | .stackUnderflow pc => pc
  | .fetchOutsideImage pc => pc

/-- How many of the signals are asserted. -/
def asserted (l : List Bool) : Nat := l.count true

/-- An operand as the assembler reads it: a label is the number the program gives it. -/
def resolved (labels : String → Option Nat) : AsmArg → AsmArg
  | .label name =>
    match labels name with
    | some n => .num n
    | none => .label name
  | arg => arg

end Sys2Proof.Claims

open Sys2Proof Sys2Proof.Machine Sys2Proof.Claims

/-! ### Reset, fetch and the step -/

/-- R150, R29: a step with `reset` asserted sets `pc`, `SP`, the flags and the registers to their reset values, and changes
nothing else. That it performs no bus transaction is the spec's choice (D13); that the bus record and the memory are kept in
it is how the model says so (DESIGN CHOICE, log entry 9). -/
def Obligations.ResetStepForcesResetValues : Prop :=
  ∀ s : State, s.resetIn = true →
    step s = .next { s with
      pc := 0, sp := 0, carry := s.params.carryReset, zero := s.params.zeroReset, regs := s.params.regReset }

/-- R152: the initial state of a run has `pc = 0`, `SP = 0`, the flags `FLAG_RESET`, the registers `REG_RESET` and the stack
`STACK_INIT`, for any parameters. That a run starts in the state after a reset step is the spec's decision (D20). The state
after a reset step from any state is that initial state but for the reset level, the data memory and the bus record, which
a reset step keeps: that a run starts with the level de-asserted, no byte written and an empty record are the model's
DESIGN CHOICES (log entries 15, 8 and 9). -/
def Obligations.InitialStateIsTheStateAfterAResetStep : Prop :=
  (∀ (p : Params) (stackInit : List Addr) (image : List IWord),
    let s := State.initial p stackInit image
    s.pc = 0 ∧ s.sp = 0 ∧ s.carry = p.carryReset ∧ s.zero = p.zeroReset ∧ s.regs = p.regReset ∧ s.stk = stackInit) ∧
  (∀ s : State, s.resetIn = true →
    ∃ t, step s = .next t ∧
      State.initial s.params s.stk s.program = { t with resetIn := false, mem := [], busLog := [] })

/-- The machine's reset state has the spec's default values of the open parameters: the opcode map, all 25 numbers of the
table of R47 (D1, log entry 1), `NOT_EXT` (D3), `STACK_POLICY` and the depth (D4), the flags and registers (D6, D7). These
are the spec's choices, and the stack's entries are the model's (log entry 5); none is a rule of the source. -/
def Obligations.ResetStateHasTheDefaultParameters : Prop :=
  State.reset = State.initial defaultParams (List.replicate 16 0) [] ∧
  State.reset.params.notExt = .wide ∧ State.reset.params.stackPolicy = .fault ∧
  State.reset.carry = false ∧ State.reset.zero = false ∧ (∀ r : RegNum, readReg State.reset r = 0) ∧
  State.reset.pc = 0 ∧ State.reset.sp = 0 ∧ stackDepth State.reset = 16 ∧
  ∀ row ∈ ([(.nop, 0), (.addRK, 1), (.addRR, 2), (.subRK, 3), (.subRR, 4), (.andRK, 5), (.andRR, 6), (.orRK, 7),
      (.orRR, 8), (.cmpRK, 9), (.cmpRR, 10), (.movRK, 11), (.movRR, 12), (.loadK, 13), (.loadR, 14), (.storeK, 15),
      (.storeR, 16), (.notR, 17), (.shlR, 18), (.shrR, 19), (.jmp, 20), (.jc, 21), (.jz, 22), (.call, 23),
      (.ret, 24)] : List (Op × Opcode)),
    State.reset.params.opcodeMap.code row.1 = row.2

/-- R151: reset wins whatever stands at `pc` (the spec's choice, D22); held for several steps it gives the same state after
each; and the first step with `reset` de-asserted executes the word at address 0. That the input is a level in the state,
which stays asserted over the steps of a run until the outside world changes it, is the model's DESIGN CHOICE (log
entry 15). -/
def Obligations.ResetHasPriorityAndThenAddressZeroRuns : Prop :=
  ∀ s : State, s.resetIn = true →
    ∃ t, step s = .next t ∧ t.resetIn = true ∧ (∀ n, Sys2Proof.core.run n t = .next t) ∧
      ∀ (ir : IWord) (i : Instr), s.program[0]? = some ir → decode s.params.opcodeMap ir = .ok i →
        step { t with resetIn := false } = exec i { t with resetIn := false }

/-- R63: where the word at the program counter decodes to a (well-formed) instruction, the step is that instruction's
execution, and nothing is added around it: each instruction moves the program counter itself. -/
def Obligations.StepRunsTheDecodedInstruction : Prop :=
  ∀ (s : State) (ir : IWord) (i : Instr), s.resetIn = false → s.program[s.pc.toNat]? = some ir →
    decode s.params.opcodeMap ir = .ok i → i.wf = true → step s = exec i s

/-- R134: a step whose `pc` is at or beyond the image's length stops with `FetchOutsideImage(pc)`. -/
def Obligations.FetchOutsideTheImageStops : Prop :=
  ∀ s : State, s.resetIn = false → s.program.length ≤ s.pc.toNat → step s = .fault (.fetchOutsideImage s.pc)

/-- R48, R132: a word whose opcode the map does not assign (the model reports the hardware's stall as a stop, D5) stops the
model with `UndefinedOpcodeStall(pc, ir)`, and every other word executes as an instruction; under the default map the
undefined opcodes are 25 to 31. -/
def Obligations.UndefinedOpcodeStalls : Prop :=
  (∀ (s : State) (ir : IWord), s.resetIn = false → s.program[s.pc.toNat]? = some ir →
    ((∀ o : Op, s.params.opcodeMap.code o ≠ opcodeOf ir) → step s = .fault (.undefinedOpcodeStall s.pc ir)) ∧
    ((∃ o : Op, s.params.opcodeMap.code o = opcodeOf ir) → ∃ i, step s = exec i s)) ∧
  (∀ c : Opcode, (∀ o : Op, defaultOpcodeMap.code o ≠ c) ↔ 25 ≤ c.toNat)

/-! ### Invariants -/

/-- R5, R24, R47: every initial state with well-formed parameters is sound, and the machine's reset state is one. -/
def Obligations.InitialStatesAreSound : Prop :=
  Inv State.reset ∧
  ∀ (p : Params) (stackInit : List Addr) (image : List IWord), p.wf = true → 1 ≤ stackInit.length →
    image.length ≤ 2048 → Inv (State.initial p stackInit image)

/-- R24: every step keeps the bounds of the stack pointer, the stack's depth, the opcode map's injectivity, the image's
size and the canonical form of the data memory, from every sound state, whether or not a run reaches it. That the map and
the image are fields that no step changes, and the list of written bytes, are the model's DESIGN CHOICES (log entries 16,
7 and 8). -/
def Obligations.StepKeepsStateSound : Prop :=
  ∀ s t : State, Inv s → step s = .next t → Inv t

/-- R30, R39: no step changes the program. That none changes the construction parameters (R5; DESIGN CHOICE, log entry 16),
the number of stack entries (`STACK_DEPTH`, held as the length of the stack, log entry 17) or the level of the reset input,
which the outside world alone drives (DESIGN CHOICE, log entry 15), is how the model holds them. -/
def Obligations.NoStepChangesProgramOrParameters : Prop :=
  ∀ s t : State, step s = .next t →
    t.program = s.program ∧ t.params = s.params ∧ stackDepth t = stackDepth s ∧ t.resetIn = s.resetIn

/-! ### Encoding -/

/-- R47: under every injective opcode map, decoding the word that the encoder writes for an instruction gives that
instruction, for all 25 instructions and every operand. -/
def Obligations.DecodeOfEncodeIsTheInstruction : Prop :=
  ∀ (m : OpcodeMap) (i : Instr), m.wf = true → i.wf = true → decode m (encode m i) = .ok i

/-- R49: a word with nonzero unused bits decodes as the same word with those bits 0, which is the word the encoder writes. -/
def Obligations.UnusedBitsAreIgnored : Prop :=
  ∀ (m : OpcodeMap) (ir : IWord) (i : Instr), decode m ir = .ok i →
    encode m i = ir &&& usedBits i.op ∧
    ∀ ir' : IWord, ir' &&& usedBits i.op = ir &&& usedBits i.op → decode m ir' = .ok i

/-- Under the default map (D1, log entry 1), one word of each format, as the spec's examples write it, decodes to its
instruction (R71, R78, R83, R103, R112, R114), and so does the word with all fields 0 of each of the 25 rows of R47. -/
def Obligations.ExampleWordsDecode : Prop :=
  decodeTableWord 16 0x1260 = some (.addRR 2 3) ∧ decodeTableWord 16 0x4A30 = some (.cmpRK 2 0x30) ∧
  decodeTableWord 16 0x9200 = some (.shlR 2) ∧ decodeTableWord 16 0x84C0 = some (.storeR 4 6) ∧
  decodeTableWord 16 0xB7FF = some (.jz 0x7FF) ∧ decodeTableWord 16 0xC000 = some .ret ∧
  decodeTableWord 16 0xC800 = none ∧
  [0x0000, 0x0800, 0x1000, 0x1800, 0x2000, 0x2800, 0x3000, 0x3800, 0x4000, 0x4800, 0x5000, 0x5800, 0x6000, 0x6800, 0x7000,
    0x7800, 0x8000, 0x8800, 0x9000, 0x9800, 0xA000, 0xA800, 0xB000, 0xB800, 0xC000].map (decodeTableWord 16) =
  [Instr.nop, .addRK 0 0, .addRR 0 0, .subRK 0 0, .subRR 0 0, .andRK 0 0, .andRR 0 0, .orRK 0 0, .orRR 0 0, .cmpRK 0 0,
    .cmpRR 0 0, .movRK 0 0, .movRR 0 0, .loadK 0 0, .loadR 0 0, .storeK 0 0, .storeR 0 0, .notR 0, .shlR 0, .shrR 0, .jmp 0,
    .jc 0, .jz 0, .call 0, .ret].map some

/-- R46: the decoder asserts at most one of `jmp`, `call`, `ret` and `pc_increment`, at most one of `memory_read` and
`memory_write`, and a register write for at most one register, the one of the Ra field; for every word and flags. -/
def Obligations.ControlSignalsAreMutuallyExclusive : Prop :=
  ∀ (m : OpcodeMap) (ir : IWord) (c z : Bool),
    let cw := controlWord m ir c z
    asserted [cw.jmp, cw.call, cw.ret, cw.pcIncrement] ≤ 1 ∧ asserted [cw.memoryRead, cw.memoryWrite] ≤ 1 ∧
    (cw.registerWrite = true → cw.addrA = raOf ir)

/-- R63: the core as the decoder table and the datapath describe it takes the same step as the instructions' own meanings,
in every state, and whatever value the signals have that the table leaves unspecified (D23). -/
def Obligations.DatapathAgreesWithTheInstructions : Prop :=
  ∀ (d : DontCare) (s : State), s.resetIn = false → coreCycle d s = step s

/-! ### The assembler -/

/-- R51: what the assembler accepts is exactly the text of an instruction: each instruction's text assembles to it, and a
text that assembles to an instruction is that instruction's text, every number in it unchanged. A number outside its
field is therefore refused, never truncated. -/
def Obligations.AssemblerAcceptsExactlyTheOperandShapes : Prop :=
  ∀ labels : String → Option Nat,
    (∀ i : Instr, asmInstr labels (asmText i).1 (asmText i).2 = some i) ∧
    (∀ (op : AsmOp) (args : List AsmArg) (i : Instr), asmInstr labels op args = some i →
      asmText i = (op, args.map (resolved labels)))

/-- R50: a program that assembles has one word for each line, the word of that line's instruction, and a label names the
address of the instruction on its line. -/
def Obligations.LabelsNameTheAddressOfTheirLine : Prop :=
  ∀ (m : OpcodeMap) (lines : List AsmLine) (image : List IWord), assemble m lines = some image →
    image.length = lines.length ∧
    ∀ (n : Nat) (line : AsmLine), lines[n]? = some line →
      (∃ i, asmInstr (labelAddr lines) line.op line.args = some i ∧ image[n]? = some (encode m i)) ∧
      (∀ name, line.label = some name → labelAddr lines name = some n)

/-! ### The ALU and its instructions -/

/-- R56: the table of the nine functions: the extended result, the 8-bit result, the carry and the zero flag of each, for
all operands; NOT under both values of `NOT_EXT`. -/
def Obligations.AluFunctionTable : Prop :=
  ∀ (ne : NotExt) (a b : Byte),
    (f9 ne .add (zext9 a) (zext9 b)).toNat = (a.toNat + b.toNat) % 512 ∧
    alu ne .add a b = ⟨BitVec.ofNat 8 (a.toNat + b.toNat), decide (256 ≤ a.toNat + b.toNat), decide (a = 0 ∧ b = 0)⟩ ∧
    (f9 ne .sub (zext9 a) (zext9 b)).toNat = (512 + a.toNat - b.toNat) % 512 ∧
    alu ne .sub a b = ⟨BitVec.ofNat 8 (256 + a.toNat - b.toNat), decide (a.toNat < b.toNat), decide (a = b)⟩ ∧
    alu ne .passA a b = ⟨a, false, decide (a = 0)⟩ ∧
    alu ne .passB a b = ⟨b, false, decide (b = 0)⟩ ∧
    alu ne .and a b = ⟨a &&& b, false, decide (a &&& b = 0)⟩ ∧
    alu ne .or a b = ⟨a ||| b, false, decide (a ||| b = 0)⟩ ∧
    (f9 .wide .not (zext9 a) (zext9 b)).toNat = 511 - a.toNat ∧
    alu .wide .not a b = ⟨BitVec.ofNat 8 (255 - a.toNat), true, false⟩ ∧
    (f9 .narrow .not (zext9 a) (zext9 b)).toNat = 255 - a.toNat ∧
    alu .narrow .not a b = ⟨BitVec.ofNat 8 (255 - a.toNat), false, decide (a.toNat = 255)⟩ ∧
    (f9 ne .shl (zext9 a) (zext9 b)).toNat = (2 * a.toNat) % 512 ∧
    alu ne .shl a b = ⟨BitVec.ofNat 8 (2 * a.toNat), a.getLsbD 7, decide (a = 0)⟩ ∧
    alu ne .shr a b = ⟨BitVec.ofNat 8 (a.toNat / 2), false, decide (a.toNat ≤ 1)⟩

/-- R57: after ADD the zero flag needs both operands 0, so an 8-bit result of 0 with a carry leaves it clear, and likewise
after SHL; after SUB, PASS_A, PASS_B, AND, OR and SHR it is set exactly when the 8-bit result is 0. -/
def Obligations.ZeroFlagIsThatOfTheExtendedResult : Prop :=
  ∀ (ne : NotExt) (a b : Byte),
    ((alu ne .add a b).zero = true ↔ a = 0 ∧ b = 0) ∧
    alu ne .add 0x80 0x80 = ⟨0, true, false⟩ ∧ alu ne .add 0xFF 0x01 = ⟨0, true, false⟩ ∧
    alu ne .shl 0x80 b = ⟨0, true, false⟩ ∧
    ∀ f ∈ [AluFn.sub, .passA, .passB, .and, .or, .shr],
      ((alu ne f a b).zero = true ↔ (alu ne f a b).result = 0) ∧
      ((alu ne f a b).result = 0 → (alu ne f a b).carry = false)

/-- R70, R71: ADD in both forms completes from every state: the sum modulo 256, C the carry out, Z only when both operands
are 0. -/
def Obligations.AddCompletes : Prop :=
  ∀ (s : State) (ra rb : RegNum) (k : Byte) (u : BitVec 5),
    exec (.addRK ra k) s = .next (wrote s ra (readReg s ra + k)
      (decide (256 ≤ (readReg s ra).toNat + k.toNat)) (decide (readReg s ra = 0 ∧ k = 0))) ∧
    spelled (.addRK ra k) (fun c => c ++ ra ++ k) .add [.reg ra.toNat, .num k.toNat] ∧
    exec (.addRR ra rb) s = .next (wrote s ra (readReg s ra + readReg s rb)
      (decide (256 ≤ (readReg s ra).toNat + (readReg s rb).toNat)) (decide (readReg s ra = 0 ∧ readReg s rb = 0))) ∧
    spelled (.addRR ra rb) (fun c => c ++ ra ++ rb ++ u) .add [.reg ra.toNat, .reg rb.toNat]

/-- R76, R77: SUB in both forms: the difference modulo 256, C the borrow, Z when the operands are equal. -/
def Obligations.SubCompletes : Prop :=
  ∀ (s : State) (ra rb : RegNum) (k : Byte) (u : BitVec 5),
    exec (.subRK ra k) s = .next (wrote s ra (readReg s ra - k)
      (decide ((readReg s ra).toNat < k.toNat)) (decide (readReg s ra = k))) ∧
    spelled (.subRK ra k) (fun c => c ++ ra ++ k) .sub [.reg ra.toNat, .num k.toNat] ∧
    exec (.subRR ra rb) s = .next (wrote s ra (readReg s ra - readReg s rb)
      (decide ((readReg s ra).toNat < (readReg s rb).toNat)) (decide (readReg s ra = readReg s rb))) ∧
    spelled (.subRR ra rb) (fun c => c ++ ra ++ rb ++ u) .sub [.reg ra.toNat, .reg rb.toNat]

/-- R72, R73: AND in both forms: C is cleared, Z is that of the result. -/
def Obligations.AndCompletes : Prop :=
  ∀ (s : State) (ra rb : RegNum) (k : Byte) (u : BitVec 5),
    exec (.andRK ra k) s = .next (wrote s ra (readReg s ra &&& k) false (decide (readReg s ra &&& k = 0))) ∧
    spelled (.andRK ra k) (fun c => c ++ ra ++ k) .and [.reg ra.toNat, .num k.toNat] ∧
    exec (.andRR ra rb) s = .next (wrote s ra (readReg s ra &&& readReg s rb) false
      (decide (readReg s ra &&& readReg s rb = 0))) ∧
    spelled (.andRR ra rb) (fun c => c ++ ra ++ rb ++ u) .and [.reg ra.toNat, .reg rb.toNat]

/-- R74, R75: OR in both forms: C is cleared, Z only when both operands are 0. -/
def Obligations.OrCompletes : Prop :=
  ∀ (s : State) (ra rb : RegNum) (k : Byte) (u : BitVec 5),
    exec (.orRK ra k) s = .next (wrote s ra (readReg s ra ||| k) false (decide (readReg s ra = 0 ∧ k = 0))) ∧
    spelled (.orRK ra k) (fun c => c ++ ra ++ k) .or [.reg ra.toNat, .num k.toNat] ∧
    exec (.orRR ra rb) s = .next (wrote s ra (readReg s ra ||| readReg s rb) false
      (decide (readReg s ra = 0 ∧ readReg s rb = 0))) ∧
    spelled (.orRR ra rb) (fun c => c ++ ra ++ rb ++ u) .or [.reg ra.toNat, .reg rb.toNat]

/-- R78, R79: CMP in both forms writes no register: C is unsigned "less than", Z is "equal". That CMP subtracts is the
spec's reading (D28). -/
def Obligations.CmpCompletes : Prop :=
  ∀ (s : State) (ra rb : RegNum) (k : Byte) (u : BitVec 5),
    exec (.cmpRK ra k) s = .next { s with
      carry := decide ((readReg s ra).toNat < k.toNat), zero := decide (readReg s ra = k), pc := s.pc + 1 } ∧
    spelled (.cmpRK ra k) (fun c => c ++ ra ++ k) .cmp [.reg ra.toNat, .num k.toNat] ∧
    exec (.cmpRR ra rb) s = .next { s with
      carry := decide ((readReg s ra).toNat < (readReg s rb).toNat)
      zero := decide (readReg s ra = readReg s rb), pc := s.pc + 1 } ∧
    spelled (.cmpRR ra rb) (fun c => c ++ ra ++ rb ++ u) .cmp [.reg ra.toNat, .reg rb.toNat]

/-- R80, R81: MOV of a literal or a register: the value, C cleared, Z when the value is 0. -/
def Obligations.MovCompletes : Prop :=
  ∀ (s : State) (ra rb : RegNum) (k : Byte) (u : BitVec 5),
    exec (.movRK ra k) s = .next (wrote s ra k false (decide (k = 0))) ∧
    spelled (.movRK ra k) (fun c => c ++ ra ++ k) .mov [.reg ra.toNat, .num k.toNat] ∧
    exec (.movRR ra rb) s = .next (wrote s ra (readReg s rb) false (decide (readReg s rb = 0))) ∧
    spelled (.movRR ra rb) (fun c => c ++ ra ++ rb ++ u) .mov [.reg ra.toNat, .reg rb.toNat]

/-- R82: NOT: the complement under both values of `NOT_EXT`; the flags are C = 1, Z = 0 under `wide`, and C = 0, Z = 1 iff
the old value is 0xFF under `narrow`. -/
def Obligations.NotCompletes : Prop :=
  ∀ (s : State) (ra : RegNum) (u : BitVec 8),
    (s.params.notExt = .wide →
      exec (.notR ra) s = .next (wrote s ra (BitVec.ofNat 8 (255 - (readReg s ra).toNat)) true false)) ∧
    (s.params.notExt = .narrow →
      exec (.notR ra) s = .next (wrote s ra (BitVec.ofNat 8 (255 - (readReg s ra).toNat)) false
        (decide (readReg s ra = 0xFF)))) ∧
    spelled (.notR ra) (fun c => c ++ ra ++ u) .not [.reg ra.toNat]

/-- R83, R84: SHL moves bit 7 into C and a 0 into bit 0, and Z is set iff the old value is 0; SHR moves a 0 into bit 7,
clears C, and sets Z iff the old value is 0 or 1. -/
def Obligations.ShiftsComplete : Prop :=
  ∀ (s : State) (ra : RegNum) (u : BitVec 8),
    exec (.shlR ra) s = .next (wrote s ra (BitVec.ofNat 8 (2 * (readReg s ra).toNat)) ((readReg s ra).getLsbD 7)
      (decide (readReg s ra = 0))) ∧
    spelled (.shlR ra) (fun c => c ++ ra ++ u) .shl [.reg ra.toNat] ∧
    exec (.shrR ra) s = .next (wrote s ra (BitVec.ofNat 8 ((readReg s ra).toNat / 2)) false
      (decide (readReg s ra = 0 ∨ readReg s ra = 1))) ∧
    spelled (.shrR ra) (fun c => c ++ ra ++ u) .shr [.reg ra.toNat]

/-- R17, R155: an instruction whose source is its destination reads the old value: `ADD R,R` doubles the register with the
result and flags of SHL (R71), `SUB R,R` clears it with C = 0 and Z = 1 (R77), and `MOV R,[R]` reads the bus at the old
value (R101). -/
def Obligations.SourceIsReadBeforeDestinationIsWritten : Prop :=
  ∀ (s : State) (r : RegNum),
    exec (.addRR r r) s = exec (.shlR r) s ∧
    exec (.subRR r r) s = .next (wrote s r 0 false true) ∧
    ∃ (v : Byte) (t : State), exec (.loadR r r) s = .next t ∧ t.busLog = .read (readReg s r) v :: s.busLog ∧
      readReg t r = v

/-! ### Loads and stores -/

/-- R100, R101: a load completes from every state: one read transaction at `K` or the old `x[Rb]`, the byte that comes in
goes to `x[Ra]`, and nothing else changes but `pc`. That a byte of plain memory that has been written answers what was
written there is R38 with the device of D11, plain memory outside `ioAddrs` (DESIGN CHOICE, log entry 8); what any other
read answers is a free value (log entry 4), of which nothing is said. -/
def Obligations.LoadCompletes : Prop :=
  (∀ (s : State) (i : Instr) (ra : RegNum) (a : Byte),
    (i = .loadK ra a ∨ ∃ rb, i = .loadR ra rb ∧ a = readReg s rb) →
    ∃ v : Byte,
      exec i s = .next { s with
        regs := s.regs.set ra.toNat v ra.isLt, busLog := .read a v :: s.busLog, pc := s.pc + 1 } ∧
      (isIO s a = false → ∀ w, memRead s.mem a.toNat = some w → v = w)) ∧
  ∀ (ra rb : RegNum) (k : Byte) (u : BitVec 5),
    spelled (.loadK ra k) (fun c => c ++ ra ++ k) .mov [.reg ra.toNat, .mem k.toNat] ∧
    spelled (.loadR ra rb) (fun c => c ++ ra ++ rb ++ u) .mov [.reg ra.toNat, .memReg rb.toNat]

/-- R102, R103: a store completes from every state: one write transaction of `x[Ra]` at `K` or `x[Rb]`, no register or flag
changed, `pc + 1`. That plain memory holds the byte at that address afterwards and every other byte as before is R38 with
the device of D11; that no byte of the memory changes where the platform gives the address to an I/O device (D27) is the
model's DESIGN CHOICE (log entry 8). -/
def Obligations.StoreCompletes : Prop :=
  (∀ (s : State) (i : Instr) (ra : RegNum) (a : Byte),
    (i = .storeK ra a ∨ ∃ rb, i = .storeR ra rb ∧ a = readReg s rb) →
    ∃ m : Memory,
      exec i s = .next { s with mem := m, busLog := .write a (readReg s ra) :: s.busLog, pc := s.pc + 1 } ∧
      (∀ b : Nat, b ≠ a.toNat → memRead m b = memRead s.mem b) ∧
      (isIO s a = false → memRead m a.toNat = some (readReg s ra)) ∧
      (isIO s a = true → m = s.mem)) ∧
  ∀ (ra rb : RegNum) (k : Byte) (u : BitVec 5),
    spelled (.storeK ra k) (fun c => c ++ ra ++ k) .mov [.mem k.toNat, .reg ra.toNat] ∧
    spelled (.storeR ra rb) (fun c => c ++ ra ++ rb ++ u) .mov [.memReg rb.toNat, .reg ra.toNat]

/-- R38: where the device is plain memory at `a` (D11; the model's DESIGN CHOICE outside `ioAddrs`, log entry 8), a load of
`a` in either form completes with the byte of the last store to `a` in either form, whatever instructions that do not store
at `a` are executed between, or none (the round trip S7). The load keeps the flags and every other register; where only
stores stand between, these are still those before the first store. -/
def Obligations.LoadReturnsTheLastStore : Prop :=
  ∀ (s t u : State) (store load : Instr) (between : List Instr) (a v : Byte) (rd : RegNum), isIO s a = false →
    storeWrite s store = some (a, v) → exec store s = .next t → runsWithoutStoringAt a between t u →
    loadAddr u load = some a → destination load = some rd →
    ∃ w, exec load u = .next w ∧ readReg w rd = v ∧ (∀ rc, rc ≠ rd → readReg w rc = readReg u rc) ∧
      w.carry = u.carry ∧ w.zero = u.zero ∧
      ((∀ i ∈ between, storeWrite s i ≠ none) → u.regs = s.regs ∧ u.carry = s.carry ∧ u.zero = s.zero)

/-- R31 to R33: a load performs exactly one read transaction, at its operand 2; a store exactly one write transaction, of
`x[Ra]` at its operand 2; every other instruction none, and it leaves the data memory as it was. -/
def Obligations.BusTransactionsOfAStep : Prop :=
  ∀ (i : Instr) (s t : State), exec i s = .next t →
    (∀ a, loadAddr s i = some a → ∃ v, t.busLog = .read a v :: s.busLog ∧ t.mem = s.mem) ∧
    (∀ a v, storeWrite s i = some (a, v) → t.busLog = .write a v :: s.busLog) ∧
    (loadAddr s i = none → storeWrite s i = none → t.busLog = s.busLog ∧ t.mem = s.mem)

/-! ### Control transfer and the call stack -/

/-- R110, R115: JMP sets `pc` to its target and NOP to `pc + 1`; nothing else changes. -/
def Obligations.JmpAndNopComplete : Prop :=
  ∀ (s : State) (pck : Addr) (u : BitVec 11),
    exec (.jmp pck) s = .next { s with pc := pck } ∧
    spelled (.jmp pck) (fun c => c ++ pck) .jmp [.num pck.toNat] ∧
    exec .nop s = .next { s with pc := s.pc + 1 } ∧
    spelled .nop (fun c => c ++ u) .nop []

/-- R111, R112: JC and JZ go to their target when C or Z is set and to `pc + 1` otherwise; nothing else changes. -/
def Obligations.ConditionalJumpsComplete : Prop :=
  ∀ (s : State) (pck : Addr),
    exec (.jc pck) s = .next { s with pc := if s.carry then pck else s.pc + 1 } ∧
    spelled (.jc pck) (fun c => c ++ pck) .jc [.num pck.toNat] ∧
    exec (.jz pck) s = .next { s with pc := if s.zero then pck else s.pc + 1 } ∧
    spelled (.jz pck) (fun c => c ++ pck) .jz [.num pck.toNat]

/-- R60, R113: CALL pushes `pc + 1` and jumps. Below the limit the entry at `SP` takes the return address and `SP` grows by
one (modulo the depth under `wrap`). At the limit, `fault` stops with `StackOverflow(pc)` and `saturate` drops the return
address and still jumps. -/
def Obligations.CallCompletesOrOverflows : Prop :=
  ∀ (s : State) (pck : Addr),
    (s.params.stackPolicy ≠ .wrap → s.sp ≠ stackDepth s →
      exec (.call pck) s = .next { s with stk := s.stk.set s.sp (s.pc + 1), sp := s.sp + 1, pc := pck }) ∧
    (s.params.stackPolicy = .wrap →
      exec (.call pck) s = .next { s with
        stk := s.stk.set s.sp (s.pc + 1), sp := (s.sp + 1) % stackDepth s, pc := pck }) ∧
    (s.params.stackPolicy = .saturate → s.sp = stackDepth s →
      exec (.call pck) s = .next { s with pc := pck }) ∧
    (s.params.stackPolicy = .fault → s.sp = stackDepth s → exec (.call pck) s = .fault (.stackOverflow s.pc)) ∧
    spelled (.call pck) (fun c => c ++ pck) .call [.num pck.toNat]

/-- R61, R114: RET goes to the entry below `SP` and lowers `SP` by one (modulo the depth under `wrap`, where an empty stack
gives the last entry). On an empty stack, `fault` stops with `StackUnderflow(pc)` and `saturate` goes to `STK[0]`. -/
def Obligations.RetCompletesOrUnderflows : Prop :=
  (∀ s : State, Inv s →
    (s.sp ≠ 0 → exec .ret s = .next { s with pc := stkAt s (s.sp - 1), sp := s.sp - 1 }) ∧
    (s.params.stackPolicy = .wrap → s.sp = 0 →
      exec .ret s = .next { s with pc := stkAt s (stackDepth s - 1), sp := stackDepth s - 1 }) ∧
    (s.params.stackPolicy = .saturate → s.sp = 0 → exec .ret s = .next { s with pc := stkAt s 0 }) ∧
    (s.params.stackPolicy = .fault → s.sp = 0 → exec .ret s = .fault (.stackUnderflow s.pc))) ∧
  ∀ u : BitVec 11, spelled .ret (fun c => c ++ u) .ret []

/-- R114: a `CALL`, then any steps that leave the call stack as the `CALL` made it, then a `RET`: control returns to the
instruction immediately after the `CALL`, and the stack pointer to its pre-call depth. Not under `saturate` on a full
stack, where the return address is dropped (R113). -/
def Obligations.RetReturnsToTheInstructionAfterCall : Prop :=
  ∀ (s t u : State) (pck : Addr), Inv s →
    (s.params.stackPolicy = .saturate → s.sp ≠ stackDepth s) → exec (.call pck) s = .next t →
    u.stk = t.stk → u.sp = t.sp → u.params = t.params →
    exec .ret u = .next { u with pc := s.pc + 1, sp := s.sp }

/-- R60: under `fault`, from an empty stack exactly `STACK_DEPTH` nested calls succeed, leaving registers, flags, memory and
the bus as they were, and the next one stops. -/
def Obligations.ExactlyStackDepthNestedCallsSucceed : Prop :=
  ∀ (s : State) (targets : List Addr), s.params.stackPolicy = .fault → s.sp = 0 →
    targets.length = stackDepth s →
    ∃ t, runCalls targets s = .next t ∧ t.sp = stackDepth s ∧ t.regs = s.regs ∧ t.carry = s.carry ∧
      t.zero = s.zero ∧ t.mem = s.mem ∧ t.busLog = s.busLog ∧
      ∀ pck, exec (.call pck) t = .fault (.stackOverflow t.pc)

/-- R23, R24: nested calls that fit stack their return addresses in order above the entries in use, which stay as they were:
the j-th return address is one past the address of the j-th CALL. -/
def Obligations.NestedCallsStackTheirReturnAddresses : Prop :=
  ∀ (s : State) (targets : List Addr), s.params.stackPolicy ≠ .wrap → s.sp + targets.length ≤ stackDepth s →
    ∃ t, runCalls targets s = .next t ∧ t.sp = s.sp + targets.length ∧
      (∀ j, j < s.sp → stkAt t j = stkAt s j) ∧
      ∀ j pc, j < targets.length → (s.pc :: targets)[j]? = some pc → stkAt t (s.sp + j) = pc + 1

/-- R19: at `pc = 2047` the next instruction is at 0, and the return address that CALL pushes is 0. -/
def Obligations.ProgramCounterWrapsAtTheTop : Prop :=
  ∀ s : State, s.pc = 2047 →
    exec .nop s = .next { s with pc := 0 } ∧
    ∀ pck t, s.sp < stackDepth s → exec (.call pck) s = .next t → stkAt t s.sp = 0

/-! ### Whole-machine rules -/

/-- R16: an instruction writes no register but the one of its Ra field, and only where the decoder enables the write. -/
def Obligations.OnlyTheDestinationRegisterChanges : Prop :=
  ∀ (i : Instr) (s t : State), exec i s = .next t →
    ∀ q : RegNum, destination i ≠ some q → readReg t q = readReg s q

/-- R21: only the ALU instructions write the flags, and only JC and JZ read them: any other instruction does the same from
a state with other flags, which it keeps unless it writes them. -/
def Obligations.FlagsAreWrittenAndReadOnlyByTheirInstructions : Prop :=
  ∀ (i : Instr) (s : State) (c z : Bool),
    (∀ t, exec i s = .next t → writesFlags i = false → t.carry = s.carry ∧ t.zero = s.zero) ∧
    (readsFlags i = false →
      (∀ t, exec i s = .next t →
        exec i (writeFlags s c z) = .next (if writesFlags i then t else writeFlags t c z)) ∧
      (∀ f, exec i s = .fault f → exec i (writeFlags s c z) = .fault f)) ∧
    (∀ pck, exec (.jc pck) (writeFlags s c z) = .next (writeFlags (if c then setPc s pck else advance s) c z) ∧
      exec (.jz pck) (writeFlags s c z) = .next (writeFlags (if z then setPc s pck else advance s) c z))

/-- R23: the call stack is written only by CALL and read only by RET: every other instruction leaves it as it is, and does
the same whatever it holds; RET writes no entry, and where CALL goes does not depend on the entries. Of R23 this is who touches
the stack; the address CALL pushes, the one RET takes and their order are stated by `CallCompletesOrOverflows`,
`RetCompletesOrUnderflows` and `NestedCallsStackTheirReturnAddresses`. -/
def Obligations.OnlyCallAndRetTouchTheStack : Prop :=
  (∀ (i : Instr) (s : State) (stk : List Addr) (sp : Nat), (∀ pck, i ≠ .call pck) → i ≠ .ret →
    ∃ t, exec i s = .next t ∧ t.stk = s.stk ∧ t.sp = s.sp ∧
      exec i { s with stk := stk, sp := sp } = .next { t with stk := stk, sp := sp }) ∧
  (∀ s t : State, exec .ret s = .next t → t.stk = s.stk) ∧
  (∀ (s t : State) (stk : List Addr) (pck : Addr), stk.length = stackDepth s → exec (.call pck) s = .next t →
    ∃ u, exec (.call pck) { s with stk := stk } = .next u ∧ u = { t with stk := u.stk })

/-- R135: the stops of a step in their priority: never while `reset` is asserted; first the fetch outside the image, then
the undefined opcode, and only then CALL on a full stack or RET on an empty one, both under `fault`. -/
def Obligations.StopsHaveTheirCausesInPriority : Prop :=
  ∀ (s : State) (f : Fault), step s = .fault f ↔
    s.resetIn = false ∧
    ((s.program.length ≤ s.pc.toNat ∧ f = .fetchOutsideImage s.pc) ∨
      ∃ ir, s.program[s.pc.toNat]? = some ir ∧
        (((∀ o : Op, s.params.opcodeMap.code o ≠ opcodeOf ir) ∧ f = .undefinedOpcodeStall s.pc ir) ∨
          (s.params.stackPolicy = .fault ∧
            (((∃ pck, decode s.params.opcodeMap ir = .ok (.call pck)) ∧ s.sp = stackDepth s ∧
                f = .stackOverflow s.pc) ∨
              (decode s.params.opcodeMap ir = .ok .ret ∧ s.sp = 0 ∧ f = .stackUnderflow s.pc)))))

/-- R117, R139: no instruction is refused, and every one but CALL and RET completes from every state; CALL and RET do under
`wrap` and `saturate` too. -/
def Obligations.EveryInstructionMayRunAtAnyTime : Prop :=
  ∀ (i : Instr) (s : State),
    (∀ r, exec i s ≠ .refused r) ∧
    (((∀ pck, i ≠ .call pck) ∧ i ≠ .ret) ∨ s.params.stackPolicy ≠ .fault → ∃ t, exec i s = .next t)

/-- R154: a JZ or JC right after a CMP, in both forms, tests the flags that CMP set. That JZ is then taken iff the operands
are equal and JC iff the first is the smaller one, unsigned, rests on CMP being SUB: the spec's presumption D28 (PRESUMED, log
entry 11). -/
def Obligations.BranchAfterCompareSeesItsFlags : Prop :=
  ∀ (s : State) (i : Instr) (ra : RegNum) (op2 : Byte) (pck : Addr),
    (i = .cmpRK ra op2 ∨ ∃ rb, i = .cmpRR ra rb ∧ op2 = readReg s rb) →
    ∃ t, exec i s = .next t ∧
      exec (.jz pck) t = .next { t with pc := if readReg s ra = op2 then pck else s.pc + 2 } ∧
      exec (.jc pck) t = .next { t with pc := if (readReg s ra).toNat < op2.toNat then pck else s.pc + 2 }

/-- R136: a run of at most `n` steps stands in a stop exactly when one of its states, none up to it having its `pc` in
`END_PCS`, has a step that raises the stop: it reports that state, the one before the offending step, and the stop's `pc` is
at that instruction. The set `END_PCS` given with a run is the spec's choice (D21, log entry 18). -/
def Obligations.StopsArePrecise : Prop :=
  ∀ (endPcs : List Addr) (n : Nat) (s t : State) (f : Fault),
    (runTo endPcs n s = .stopped f t ↔
      step t = .fault f ∧ ∃ k, k < n ∧ Sys2Proof.core.run k s = .next t ∧ noEndBefore endPcs (k + 1) s) ∧
    (step t = .fault f → faultPc f = t.pc)

/-- R158: a run of at most `n` steps ends exactly when it reaches a state whose `pc` is in `END_PCS`, and it ends in the first
such state, before that step executes. The definition of the end is the spec's choice (D21, log entry 18). -/
def Obligations.RunEndsAtTheFirstEndAddress : Prop :=
  ∀ (endPcs : List Addr) (n : Nat) (s t : State), runTo endPcs n s = .ended t ↔
    t.pc ∈ endPcs ∧ ∃ k, k ≤ n ∧ Sys2Proof.core.run k s = .next t ∧ noEndBefore endPcs k s
end

