-- ==== Sys2Proof/Laws/State.lean ====
section
/-!
SUPPORT. What every update of the state does to every field, once: later proofs rewrite with these and unfold no update.
-/

namespace Sys2Proof.Machine

/-! ### `writeReg` -/

@[simp] theorem writeReg_regs (s : State) (r : RegNum) (v : Byte) : (writeReg s r v).regs = s.regs.set r.toNat v r.isLt := rfl
@[simp] theorem writeReg_pc (s : State) (r : RegNum) (v : Byte) : (writeReg s r v).pc = s.pc := rfl
@[simp] theorem writeReg_carry (s : State) (r : RegNum) (v : Byte) : (writeReg s r v).carry = s.carry := rfl
@[simp] theorem writeReg_zero (s : State) (r : RegNum) (v : Byte) : (writeReg s r v).zero = s.zero := rfl
@[simp] theorem writeReg_stk (s : State) (r : RegNum) (v : Byte) : (writeReg s r v).stk = s.stk := rfl
@[simp] theorem writeReg_sp (s : State) (r : RegNum) (v : Byte) : (writeReg s r v).sp = s.sp := rfl
@[simp] theorem writeReg_resetIn (s : State) (r : RegNum) (v : Byte) : (writeReg s r v).resetIn = s.resetIn := rfl
@[simp] theorem writeReg_program (s : State) (r : RegNum) (v : Byte) : (writeReg s r v).program = s.program := rfl
@[simp] theorem writeReg_mem (s : State) (r : RegNum) (v : Byte) : (writeReg s r v).mem = s.mem := rfl
@[simp] theorem writeReg_busLog (s : State) (r : RegNum) (v : Byte) : (writeReg s r v).busLog = s.busLog := rfl
@[simp] theorem writeReg_params (s : State) (r : RegNum) (v : Byte) : (writeReg s r v).params = s.params := rfl

/-! ### `writeFlags` -/

@[simp] theorem writeFlags_regs (s : State) (c z : Bool) : (writeFlags s c z).regs = s.regs := rfl
@[simp] theorem writeFlags_pc (s : State) (c z : Bool) : (writeFlags s c z).pc = s.pc := rfl
@[simp] theorem writeFlags_carry (s : State) (c z : Bool) : (writeFlags s c z).carry = c := rfl
@[simp] theorem writeFlags_zero (s : State) (c z : Bool) : (writeFlags s c z).zero = z := rfl
@[simp] theorem writeFlags_stk (s : State) (c z : Bool) : (writeFlags s c z).stk = s.stk := rfl
@[simp] theorem writeFlags_sp (s : State) (c z : Bool) : (writeFlags s c z).sp = s.sp := rfl
@[simp] theorem writeFlags_resetIn (s : State) (c z : Bool) : (writeFlags s c z).resetIn = s.resetIn := rfl
@[simp] theorem writeFlags_program (s : State) (c z : Bool) : (writeFlags s c z).program = s.program := rfl
@[simp] theorem writeFlags_mem (s : State) (c z : Bool) : (writeFlags s c z).mem = s.mem := rfl
@[simp] theorem writeFlags_busLog (s : State) (c z : Bool) : (writeFlags s c z).busLog = s.busLog := rfl
@[simp] theorem writeFlags_params (s : State) (c z : Bool) : (writeFlags s c z).params = s.params := rfl

/-! ### `setPc` and `advance` -/

@[simp] theorem setPc_regs (s : State) (a : Addr) : (setPc s a).regs = s.regs := rfl
@[simp] theorem setPc_pc (s : State) (a : Addr) : (setPc s a).pc = a := rfl
@[simp] theorem setPc_carry (s : State) (a : Addr) : (setPc s a).carry = s.carry := rfl
@[simp] theorem setPc_zero (s : State) (a : Addr) : (setPc s a).zero = s.zero := rfl
@[simp] theorem setPc_stk (s : State) (a : Addr) : (setPc s a).stk = s.stk := rfl
@[simp] theorem setPc_sp (s : State) (a : Addr) : (setPc s a).sp = s.sp := rfl
@[simp] theorem setPc_resetIn (s : State) (a : Addr) : (setPc s a).resetIn = s.resetIn := rfl
@[simp] theorem setPc_program (s : State) (a : Addr) : (setPc s a).program = s.program := rfl
@[simp] theorem setPc_mem (s : State) (a : Addr) : (setPc s a).mem = s.mem := rfl
@[simp] theorem setPc_busLog (s : State) (a : Addr) : (setPc s a).busLog = s.busLog := rfl
@[simp] theorem setPc_params (s : State) (a : Addr) : (setPc s a).params = s.params := rfl

@[simp] theorem advance_regs (s : State) : (advance s).regs = s.regs := rfl
@[simp] theorem advance_pc (s : State) : (advance s).pc = s.pc + 1 := rfl
@[simp] theorem advance_carry (s : State) : (advance s).carry = s.carry := rfl
@[simp] theorem advance_zero (s : State) : (advance s).zero = s.zero := rfl
@[simp] theorem advance_stk (s : State) : (advance s).stk = s.stk := rfl
@[simp] theorem advance_sp (s : State) : (advance s).sp = s.sp := rfl
@[simp] theorem advance_resetIn (s : State) : (advance s).resetIn = s.resetIn := rfl
@[simp] theorem advance_program (s : State) : (advance s).program = s.program := rfl
@[simp] theorem advance_mem (s : State) : (advance s).mem = s.mem := rfl
@[simp] theorem advance_busLog (s : State) : (advance s).busLog = s.busLog := rfl
@[simp] theorem advance_params (s : State) : (advance s).params = s.params := rfl

/-! ### The bus -/

@[simp] theorem busRead_regs (s : State) (a v : Byte) : (busRead s a v).regs = s.regs := rfl
@[simp] theorem busRead_pc (s : State) (a v : Byte) : (busRead s a v).pc = s.pc := rfl
@[simp] theorem busRead_carry (s : State) (a v : Byte) : (busRead s a v).carry = s.carry := rfl
@[simp] theorem busRead_zero (s : State) (a v : Byte) : (busRead s a v).zero = s.zero := rfl
@[simp] theorem busRead_stk (s : State) (a v : Byte) : (busRead s a v).stk = s.stk := rfl
@[simp] theorem busRead_sp (s : State) (a v : Byte) : (busRead s a v).sp = s.sp := rfl
@[simp] theorem busRead_resetIn (s : State) (a v : Byte) : (busRead s a v).resetIn = s.resetIn := rfl
@[simp] theorem busRead_program (s : State) (a v : Byte) : (busRead s a v).program = s.program := rfl
@[simp] theorem busRead_mem (s : State) (a v : Byte) : (busRead s a v).mem = s.mem := rfl
@[simp] theorem busRead_busLog (s : State) (a v : Byte) : (busRead s a v).busLog = .read a v :: s.busLog := rfl
@[simp] theorem busRead_params (s : State) (a v : Byte) : (busRead s a v).params = s.params := rfl

@[simp] theorem busWrite_regs (s : State) (a v : Byte) : (busWrite s a v).regs = s.regs := rfl
@[simp] theorem busWrite_pc (s : State) (a v : Byte) : (busWrite s a v).pc = s.pc := rfl
@[simp] theorem busWrite_carry (s : State) (a v : Byte) : (busWrite s a v).carry = s.carry := rfl
@[simp] theorem busWrite_zero (s : State) (a v : Byte) : (busWrite s a v).zero = s.zero := rfl
@[simp] theorem busWrite_stk (s : State) (a v : Byte) : (busWrite s a v).stk = s.stk := rfl
@[simp] theorem busWrite_sp (s : State) (a v : Byte) : (busWrite s a v).sp = s.sp := rfl
@[simp] theorem busWrite_resetIn (s : State) (a v : Byte) : (busWrite s a v).resetIn = s.resetIn := rfl
@[simp] theorem busWrite_program (s : State) (a v : Byte) : (busWrite s a v).program = s.program := rfl
@[simp] theorem busWrite_mem (s : State) (a v : Byte) : (busWrite s a v).mem = if isIO s a then s.mem else memWrite s.mem a.toNat v := rfl
@[simp] theorem busWrite_busLog (s : State) (a v : Byte) : (busWrite s a v).busLog = .write a v :: s.busLog := rfl
@[simp] theorem busWrite_params (s : State) (a v : Byte) : (busWrite s a v).params = s.params := rfl

/-! ### Reset -/

@[simp] theorem resetStep_regs (s : State) : (resetStep s).regs = s.params.regReset := rfl
@[simp] theorem resetStep_pc (s : State) : (resetStep s).pc = 0 := rfl
@[simp] theorem resetStep_carry (s : State) : (resetStep s).carry = s.params.carryReset := rfl
@[simp] theorem resetStep_zero (s : State) : (resetStep s).zero = s.params.zeroReset := rfl
@[simp] theorem resetStep_stk (s : State) : (resetStep s).stk = s.stk := rfl
@[simp] theorem resetStep_sp (s : State) : (resetStep s).sp = 0 := rfl
@[simp] theorem resetStep_resetIn (s : State) : (resetStep s).resetIn = s.resetIn := rfl
@[simp] theorem resetStep_program (s : State) : (resetStep s).program = s.program := rfl
@[simp] theorem resetStep_mem (s : State) : (resetStep s).mem = s.mem := rfl
@[simp] theorem resetStep_busLog (s : State) : (resetStep s).busLog = s.busLog := rfl
@[simp] theorem resetStep_params (s : State) : (resetStep s).params = s.params := rfl

/-! ### Reading a register after an update -/

@[simp] theorem readReg_writeFlags (s : State) (c z : Bool) (q : RegNum) :
    readReg (writeFlags s c z) q = readReg s q := rfl

@[simp] theorem readReg_setPc (s : State) (a : Addr) (q : RegNum) : readReg (setPc s a) q = readReg s q := rfl

@[simp] theorem readReg_advance (s : State) (q : RegNum) : readReg (advance s) q = readReg s q := rfl

@[simp] theorem readReg_busRead (s : State) (a v : Byte) (q : RegNum) :
    readReg (busRead s a v) q = readReg s q := rfl

@[simp] theorem readReg_busWrite (s : State) (a v : Byte) (q : RegNum) :
    readReg (busWrite s a v) q = readReg s q := rfl

/-- Read after write: the register written reads the value, every other register reads as before (R16). -/
@[simp] theorem readReg_writeReg (s : State) (r q : RegNum) (v : Byte) :
    readReg (writeReg s r v) q = if q = r then v else readReg s q := by
  simp [readReg, writeReg, Vector.getElem_set, BitVec.toNat_inj, eq_comm]

end Sys2Proof.Machine
end

