-- ==== Sys2Proof/Laws/Alu.lean ====
section
/-!
SUPPORT. What the ALU puts out and what the shared steps of the ALU instructions and of the stores do to the state.
-/

namespace Sys2Proof.Machine

@[simp] theorem aluOut_result (ext : Ext) : (aluOut ext).result = ext.setWidth 8 := rfl

@[simp] theorem aluOut_carry (ext : Ext) : (aluOut ext).carry = ext.getLsbD 8 := rfl

@[simp] theorem aluOut_zero (ext : Ext) : (aluOut ext).zero = (ext == 0) := rfl

/-- Zero-extension loses nothing. -/
theorem setWidth_zext9 (v : Byte) : (zext9 v).setWidth 8 = v := by
  ext i hi
  simp [zext9]

/-- Bit 8 of a zero-extended operand is 0, so a function that keeps to its operands' bits clears the carry. -/
theorem getLsbD_zext9_eight (v : Byte) : (zext9 v).getLsbD 8 = false := by simp [zext9]

/-- The pass-through of operand A, which stores use (R32). -/
theorem alu_passA_result (ne : NotExt) (a b : Byte) : (alu ne .passA a b).result = a := setWidth_zext9 a

/-- A step that writes back leaves everything but its register, the flags and `pc` as it was. -/
theorem aluToReg_eq (f : AluFn) (ra : RegNum) (op2 : Byte) (s : State) :
    aluToReg f ra op2 s = { s with
      regs := s.regs.set ra.toNat (alu s.params.notExt f (readReg s ra) op2).result ra.isLt
      carry := (alu s.params.notExt f (readReg s ra) op2).carry
      zero := (alu s.params.notExt f (readReg s ra) op2).zero
      pc := s.pc + 1 } := rfl

/-- A compare leaves everything but the flags and `pc` as it was. -/
theorem aluToFlags_eq (f : AluFn) (ra : RegNum) (op2 : Byte) (s : State) :
    aluToFlags f ra op2 s = { s with
      carry := (alu s.params.notExt f (readReg s ra) op2).carry
      zero := (alu s.params.notExt f (readReg s ra) op2).zero
      pc := s.pc + 1 } := rfl

/-- A load changes its register, the record of the bus and `pc`. -/
theorem loadFrom_eq (ra : RegNum) (a : Byte) (s : State) :
    loadFrom ra a s = { s with
      regs := s.regs.set ra.toNat (dataIn s a) ra.isLt
      busLog := .read a (dataIn s a) :: s.busLog
      pc := s.pc + 1 } := rfl

/-- A store changes the memory, the record of the bus and `pc`; the byte stored is `x[Ra]`. -/
theorem storeTo_eq (ra : RegNum) (a : Byte) (s : State) :
    storeTo ra a s = { s with
      mem := if isIO s a then s.mem else memWrite s.mem a.toNat (readReg s ra)
      busLog := .write a (readReg s ra) :: s.busLog
      pc := s.pc + 1 } := by
  simp only [storeTo, alu_passA_result]
  rfl

end Sys2Proof.Machine
end

