-- ==== Sys2Proof/Laws/Decode.lean ====
section
/-!
SUPPORT. The fields of a word, and what the decoder and the opcode map can do.
-/

namespace Sys2Proof

theorem Op.mem_all (o : Op) : o ∈ Op.all := by cases o <;> decide

/-- A well-formed opcode map is injective (R47). -/
theorem OpcodeMap.wf_iff (m : OpcodeMap) : m.wf = true ↔ ∀ a b : Op, m.code a = m.code b → a = b := by
  simp only [OpcodeMap.wf, List.all_eq_true, Bool.or_eq_true, bne_iff_ne, beq_iff_eq]
  constructor
  · intro h a b e
    exact (h a (Op.mem_all a) b (Op.mem_all b)).resolve_left (· e)
  · intro h a _ b _
    by_cases e : m.code a = m.code b
    · exact .inr (h a b e)
    · exact .inl e

/-- The default map is injective. -/
theorem defaultOpcodeMap_wf : defaultOpcodeMap.wf = true := by decide

/-- An opcode that the map assigns is read as its instruction. -/
theorem opOf_code {m : OpcodeMap} (h : m.wf = true) (o : Op) : opOf m (m.code o) = some o := by
  unfold opOf
  cases e : Op.all.find? (fun p => m.code p == m.code o) with
  | none =>
    have := List.find?_eq_none.mp e o (Op.mem_all o)
    simp at this
  | some p =>
    have hp := List.find?_some e
    rw [(OpcodeMap.wf_iff m).mp h p o (by simpa using hp)]

/-- What the decoder reads from an opcode carries that opcode. -/
theorem code_of_opOf {m : OpcodeMap} {c : Opcode} {o : Op} (h : opOf m c = some o) : m.code o = c := by
  simpa using List.find?_some h

/-- An opcode is undefined exactly when the map assigns it to no instruction (R48). -/
theorem opOf_eq_none (m : OpcodeMap) (c : Opcode) : opOf m c = none ↔ ∀ o, m.code o ≠ c := by
  simp only [opOf, List.find?_eq_none, beq_iff_eq]
  exact ⟨fun h o => h o (Op.mem_all o), fun h o _ => h o⟩

/-- Everything the decoder can answer with an instruction. -/
theorem decode_ok {m : OpcodeMap} {ir : IWord} {i : Instr} (h : decode m ir = .ok i) :
    ∃ o, opOf m (opcodeOf ir) = some o ∧ i = instrOf o ir := by
  unfold decode at h
  split at h
  · rename_i o ho
    cases h
    exact ⟨o, ho, rfl⟩
  · cases h

/-- The decoder refuses exactly the undefined opcodes (R48). -/
theorem decode_error {m : OpcodeMap} {ir : IWord} {e : DecodeError} (h : decode m ir = .error e) :
    opOf m (opcodeOf ir) = none ∧ e = .undefinedOpcode (opcodeOf ir) := by
  unfold decode at h
  split at h
  · cases h
  · rename_i ho
    cases h
    exact ⟨ho, rfl⟩

/-! ### The fields of the words the encoder writes -/

section
variable (c : Opcode) (ra rb : RegNum) (k : Byte) (pck : Addr)

@[simp] theorem opcodeOf_wordRK : opcodeOf (wordRK c ra k) = c := by
  ext i hi
  simp [opcodeOf, wordRK, wordOf]
  grind

@[simp] theorem raOf_wordRK : raOf (wordRK c ra k) = ra := by
  ext i hi
  simp [raOf, wordRK, wordOf]
  grind

@[simp] theorem kOf_wordRK : kOf (wordRK c ra k) = k := by
  ext i hi
  simp [kOf, wordRK, wordOf]
  grind

@[simp] theorem opcodeOf_wordRR : opcodeOf (wordRR c ra rb) = c := by
  ext i hi
  simp [opcodeOf, wordRR, wordOf]
  grind

@[simp] theorem raOf_wordRR : raOf (wordRR c ra rb) = ra := by
  ext i hi
  simp [raOf, wordRR, wordOf]
  grind

@[simp] theorem rbOf_wordRR : rbOf (wordRR c ra rb) = rb := by
  ext i hi
  simp [rbOf, wordRR, wordOf]
  grind

@[simp] theorem opcodeOf_wordR : opcodeOf (wordR c ra) = c := by
  ext i hi
  simp [opcodeOf, wordR, wordOf]
  grind

@[simp] theorem raOf_wordR : raOf (wordR c ra) = ra := by
  ext i hi
  simp [raOf, wordR, wordOf]
  grind

@[simp] theorem opcodeOf_wordA : opcodeOf (wordA c pck) = c := by
  ext i hi
  simp [opcodeOf, wordA, wordOf]
  grind

@[simp] theorem pckOf_wordA : pckOf (wordA c pck) = pck := by
  ext i hi
  simp [pckOf, wordA, wordOf]
  grind

@[simp] theorem opcodeOf_wordN : opcodeOf (wordN c) = c := by
  ext i hi
  simp [opcodeOf, wordN, wordOf]
  grind

/-! ### The fields of a word written out as a concatenation of its fields -/

/-- A bit of a concatenation whose width is given as a numeral. -/
theorem getLsbD_of_append {n m : Nat} (x : BitVec n) (y : BitVec m) (w : BitVec (n + m)) (h : w = x ++ y) (i : Nat) :
    w.getLsbD i = if i < m then y.getLsbD i else x.getLsbD (i - m) := by
  subst h
  rw [BitVec.getLsbD_append]

variable (u5 : BitVec 5) (u8 : BitVec 8) (u11 : BitVec 11)

theorem opcodeOf_appendRK : opcodeOf (c ++ ra ++ k) = c := by
  apply BitVec.eq_of_getLsbD_eq
  intro i hi
  simp only [opcodeOf, BitVec.getLsbD_extractLsb', hi, decide_true, Bool.true_and]
  rw [getLsbD_of_append (n := 8) (m := 8) (c ++ ra) k _ rfl, getLsbD_of_append (n := 5) (m := 3) (c) ra _ rfl]
  grind

theorem raOf_appendRK : raOf (c ++ ra ++ k) = ra := by
  apply BitVec.eq_of_getLsbD_eq
  intro i hi
  simp only [raOf, BitVec.getLsbD_extractLsb', hi, decide_true, Bool.true_and]
  rw [getLsbD_of_append (n := 8) (m := 8) (c ++ ra) k _ rfl, getLsbD_of_append (n := 5) (m := 3) (c) ra _ rfl]
  grind

theorem kOf_appendRK : kOf (c ++ ra ++ k) = k := by
  apply BitVec.eq_of_getLsbD_eq
  intro i hi
  simp only [kOf, BitVec.getLsbD_extractLsb', hi, decide_true, Bool.true_and]
  rw [getLsbD_of_append (n := 8) (m := 8) (c ++ ra) k _ rfl, getLsbD_of_append (n := 5) (m := 3) (c) ra _ rfl]
  grind

theorem opcodeOf_appendRR : opcodeOf (c ++ ra ++ rb ++ u5) = c := by
  apply BitVec.eq_of_getLsbD_eq
  intro i hi
  simp only [opcodeOf, BitVec.getLsbD_extractLsb', hi, decide_true, Bool.true_and]
  rw [getLsbD_of_append (n := 11) (m := 5) (c ++ ra ++ rb) u5 _ rfl, getLsbD_of_append (n := 8) (m := 3) (c ++ ra) rb _ rfl, getLsbD_of_append (n := 5) (m := 3) (c) ra _ rfl]
  grind

theorem raOf_appendRR : raOf (c ++ ra ++ rb ++ u5) = ra := by
  apply BitVec.eq_of_getLsbD_eq
  intro i hi
  simp only [raOf, BitVec.getLsbD_extractLsb', hi, decide_true, Bool.true_and]
  rw [getLsbD_of_append (n := 11) (m := 5) (c ++ ra ++ rb) u5 _ rfl, getLsbD_of_append (n := 8) (m := 3) (c ++ ra) rb _ rfl, getLsbD_of_append (n := 5) (m := 3) (c) ra _ rfl]
  grind

theorem rbOf_appendRR : rbOf (c ++ ra ++ rb ++ u5) = rb := by
  apply BitVec.eq_of_getLsbD_eq
  intro i hi
  simp only [rbOf, BitVec.getLsbD_extractLsb', hi, decide_true, Bool.true_and]
  rw [getLsbD_of_append (n := 11) (m := 5) (c ++ ra ++ rb) u5 _ rfl, getLsbD_of_append (n := 8) (m := 3) (c ++ ra) rb _ rfl, getLsbD_of_append (n := 5) (m := 3) (c) ra _ rfl]
  grind

theorem opcodeOf_appendR : opcodeOf (c ++ ra ++ u8) = c := by
  apply BitVec.eq_of_getLsbD_eq
  intro i hi
  simp only [opcodeOf, BitVec.getLsbD_extractLsb', hi, decide_true, Bool.true_and]
  rw [getLsbD_of_append (n := 8) (m := 8) (c ++ ra) u8 _ rfl, getLsbD_of_append (n := 5) (m := 3) (c) ra _ rfl]
  grind

theorem raOf_appendR : raOf (c ++ ra ++ u8) = ra := by
  apply BitVec.eq_of_getLsbD_eq
  intro i hi
  simp only [raOf, BitVec.getLsbD_extractLsb', hi, decide_true, Bool.true_and]
  rw [getLsbD_of_append (n := 8) (m := 8) (c ++ ra) u8 _ rfl, getLsbD_of_append (n := 5) (m := 3) (c) ra _ rfl]
  grind

theorem opcodeOf_appendA : opcodeOf (c ++ pck) = c := by
  apply BitVec.eq_of_getLsbD_eq
  intro i hi
  simp only [opcodeOf, BitVec.getLsbD_extractLsb', hi, decide_true, Bool.true_and]
  rw [getLsbD_of_append (n := 5) (m := 11) (c) pck _ rfl]
  grind

theorem pckOf_appendA : pckOf (c ++ pck) = pck := by
  apply BitVec.eq_of_getLsbD_eq
  intro i hi
  simp only [pckOf, BitVec.getLsbD_extractLsb', hi, decide_true, Bool.true_and]
  rw [getLsbD_of_append (n := 5) (m := 11) (c) pck _ rfl]
  grind

theorem opcodeOf_appendN : opcodeOf (c ++ u11) = c := by
  apply BitVec.eq_of_getLsbD_eq
  intro i hi
  simp only [opcodeOf, BitVec.getLsbD_extractLsb', hi, decide_true, Bool.true_and]
  rw [getLsbD_of_append (n := 5) (m := 11) (c) u11 _ rfl]
  grind

end

end Sys2Proof
end

