-- ==== Sys2Proof/Laws/Ops.lean ====
section
/-!
SUPPORT. What each shared operation can do, said once: the data memory and its canonical form, the call stack, the bus.
-/

namespace Sys2Proof.Machine

/-! ### The data memory -/

/-- A read after a write: the address written holds the byte, every other address is left alone. -/
theorem memRead_memWrite (m : Memory) (a b : Nat) (v : Byte) :
    memRead (memWrite m a v) b = if b = a then some v else memRead m b := by
  induction m with
  | nil => simp [memWrite, memRead]
  | cons c m ih =>
    obtain ⟨d, w⟩ := c
    simp only [memWrite]
    split
    · rename_i h
      subst h
      simp only [memRead]
      split <;> simp_all
    · split
      · simp [memRead]
      · simp only [memRead, ih]
        split
        · rename_i h
          simp only [h]
          split <;> simp_all
        · rfl

/-- A canonical memory stays canonical under a weaker bound. -/
theorem memRising_mono {lo hi : Nat} {m : Memory} (h : memRising hi m = true) (le : lo ≤ hi) : memRising lo m = true := by
  cases m with
  | nil => rfl
  | cons c m =>
    obtain ⟨a, v⟩ := c
    simp only [memRising, Bool.and_eq_true, decide_eq_true_eq] at h ⊢
    exact ⟨⟨by omega, h.1.2⟩, h.2⟩

/-- A write below 256 keeps the canonical form. -/
theorem memRising_memWrite {lo : Nat} {m : Memory} {a : Nat} (v : Byte) (h : memRising lo m = true) (hlo : lo ≤ a)
    (ha : a < 256) : memRising lo (memWrite m a v) = true := by
  induction m generalizing lo with
  | nil => simp [memWrite, memRising, hlo, ha]
  | cons c m ih =>
    obtain ⟨b, w⟩ := c
    simp only [memRising, Bool.and_eq_true, decide_eq_true_eq] at h
    simp only [memWrite]
    split
    · rename_i e
      subst e
      simp [memRising, hlo, ha, h.2]
    · split
      · have hb : memRising (a + 1) ((b, w) :: m) = true := by
          simp only [memRising, Bool.and_eq_true, decide_eq_true_eq]
          exact ⟨⟨by omega, h.1.2⟩, h.2⟩
        simp [memRising, hlo, ha] at hb ⊢
        exact hb
      · simp only [memRising, Bool.and_eq_true, decide_eq_true_eq]
        exact ⟨h.1, ih h.2 (by omega)⟩

/-- Every write the bus can make keeps the canonical form. -/
theorem memory_wf_memWrite {m : Memory} (h : Memory.wf m = true) (a v : Byte) :
    Memory.wf (memWrite m a.toNat v) = true :=
  memRising_memWrite v h (Nat.zero_le _) a.isLt

/-- A store's transaction keeps the canonical form, whoever owns the address. -/
theorem memory_wf_busWrite {s : State} (h : Memory.wf s.mem = true) (a v : Byte) :
    Memory.wf (busWrite s a v).mem = true := by
  simp only [busWrite_mem]
  split
  · exact h
  · exact memory_wf_memWrite h a v

/-- The memory of the initial state is canonical. -/
theorem memory_wf_reset : Memory.wf State.reset.mem = true := rfl

/-! ### The data bus -/

/-- What plain memory answers is the byte last written (R38). -/
theorem dataIn_of_written {s : State} {a v : Byte} (io : isIO s a = false) (h : memRead s.mem a.toNat = some v) :
    dataIn s a = v := by
  simp [dataIn, io, h]

/-- A read of the memory after a store's transaction: the byte stored at its own address, where that is plain memory, and
every other address as before. -/
theorem memRead_busWrite (s : State) (a b v : Byte) :
    memRead (busWrite s b v).mem a.toNat = if a = b ∧ isIO s b = false then some v else memRead s.mem a.toNat := by
  simp only [busWrite_mem]
  cases isIO s b <;> simp [memRead_memWrite, BitVec.toNat_inj]

/-! ### The call stack -/

/-- Everything a push can do: it writes one entry and moves the pointer, or drops the value on a full stack under
`saturate`. -/
theorem push_cases {v : Addr} {s t : State} (h : push v s = .ok t) :
    (∃ sp, t = { s with stk := s.stk.set s.sp v, sp := sp } ∧
      ((s.params.stackPolicy = .wrap ∧ sp = (s.sp + 1) % stackDepth s) ∨
       (s.params.stackPolicy ≠ .wrap ∧ s.sp ≠ stackDepth s ∧ sp = s.sp + 1))) ∨
    (s.params.stackPolicy = .saturate ∧ s.sp = stackDepth s ∧ t = s) := by
  unfold push at h
  split at h <;> rename_i hp
  · split at h
    · cases h
    · rename_i hs
      cases h
      exact .inl ⟨_, rfl, .inr ⟨by simp [hp], hs, rfl⟩⟩
  · cases h
    exact .inl ⟨_, rfl, .inl ⟨hp, rfl⟩⟩
  · split at h
    · rename_i hs
      cases h
      exact .inr ⟨hp, hs, rfl⟩
    · rename_i hs
      cases h
      exact .inl ⟨_, rfl, .inr ⟨by simp [hp], hs, rfl⟩⟩

/-- The only stop of a push (R60). -/
theorem push_error {v : Addr} {s : State} {f : Fault} (h : push v s = .error f) :
    f = .stackOverflow s.pc ∧ s.params.stackPolicy = .fault ∧ s.sp = stackDepth s := by
  unfold push at h
  split at h <;> rename_i hp
  · split at h
    · rename_i hs
      cases h
      exact ⟨rfl, hp, hs⟩
    · cases h
  · cases h
  · split at h <;> cases h

/-- Everything a pop can do: it moves the pointer and answers the entry there. -/
theorem pop_cases {s t : State} {v : Addr} (h : pop s = .ok (v, t)) :
    ∃ sp, t = { s with sp := sp } ∧ v = stkAt s sp ∧
      ((s.params.stackPolicy = .wrap ∧ sp = (s.sp + stackDepth s - 1) % stackDepth s) ∨
       (s.params.stackPolicy ≠ .wrap ∧ s.sp ≠ 0 ∧ sp = s.sp - 1) ∨
       (s.params.stackPolicy = .saturate ∧ s.sp = 0 ∧ sp = 0)) := by
  unfold pop at h
  split at h <;> rename_i hp
  · split at h
    · cases h
    · rename_i hs
      cases h
      exact ⟨_, rfl, rfl, .inr (.inl ⟨by simp [hp], hs, rfl⟩)⟩
  · cases h
    exact ⟨_, rfl, rfl, .inl ⟨hp, rfl⟩⟩
  · split at h
    · rename_i hs
      cases h
      exact ⟨0, by rw [← hs], rfl, .inr (.inr ⟨hp, hs, rfl⟩)⟩
    · rename_i hs
      cases h
      exact ⟨_, rfl, rfl, .inr (.inl ⟨by simp [hp], hs, rfl⟩)⟩

/-- The only stop of a pop (R61). -/
theorem pop_error {s : State} {f : Fault} (h : pop s = .error f) :
    f = .stackUnderflow s.pc ∧ s.params.stackPolicy = .fault ∧ s.sp = 0 := by
  unfold pop at h
  split at h <;> rename_i hp
  · split at h
    · rename_i hs
      cases h
      exact ⟨rfl, hp, hs⟩
    · cases h
  · cases h
  · split at h <;> cases h

/-- `CALL` answers a next state exactly when its push does. -/
theorem execCall_next {pck : Addr} {s t : State} (h : execCall pck s = .next t) :
    ∃ u, push (s.pc + 1) s = .ok u ∧ t = setPc u pck := by
  unfold execCall at h
  split at h
  · rename_i u hu
    cases h
    exact ⟨u, hu, rfl⟩
  · cases h

/-- `RET` answers a next state exactly when its pop does. -/
theorem execRet_next {s t : State} (h : execRet s = .next t) :
    ∃ v u, pop s = .ok (v, u) ∧ t = setPc u v := by
  unfold execRet at h
  split at h
  · rename_i v u hu
    cases h
    exact ⟨v, u, hu, rfl⟩
  · cases h

end Sys2Proof.Machine
end

