-- ==== Sys2Proof/Laws/PerInstr.lean ====
section
/-!
SUPPORT. A statement made for each instruction by itself: the top five bits of the word the encoder writes are the opcode
that the map gives the instruction, under every map (R40, R47).
-/

namespace Sys2Proof.Laws.OpcodeField

/-- The word of `i` carries `i`'s opcode in `ir[15:11]`, whatever its operands. -/
def Statement (i : Instr) : Prop := ∀ m : OpcodeMap, opcodeOf (encode m i) = m.code i.op

theorem nop : Statement (.nop) := fun _ => opcodeOf_wordN ..

theorem addRK (ra : RegNum) (k : Byte) : Statement (.addRK ra k) := fun _ => opcodeOf_wordRK ..

theorem addRR (ra rb : RegNum) : Statement (.addRR ra rb) := fun _ => opcodeOf_wordRR ..

theorem subRK (ra : RegNum) (k : Byte) : Statement (.subRK ra k) := fun _ => opcodeOf_wordRK ..

theorem subRR (ra rb : RegNum) : Statement (.subRR ra rb) := fun _ => opcodeOf_wordRR ..

theorem andRK (ra : RegNum) (k : Byte) : Statement (.andRK ra k) := fun _ => opcodeOf_wordRK ..

theorem andRR (ra rb : RegNum) : Statement (.andRR ra rb) := fun _ => opcodeOf_wordRR ..

theorem orRK (ra : RegNum) (k : Byte) : Statement (.orRK ra k) := fun _ => opcodeOf_wordRK ..

theorem orRR (ra rb : RegNum) : Statement (.orRR ra rb) := fun _ => opcodeOf_wordRR ..

theorem cmpRK (ra : RegNum) (k : Byte) : Statement (.cmpRK ra k) := fun _ => opcodeOf_wordRK ..

theorem cmpRR (ra rb : RegNum) : Statement (.cmpRR ra rb) := fun _ => opcodeOf_wordRR ..

theorem movRK (ra : RegNum) (k : Byte) : Statement (.movRK ra k) := fun _ => opcodeOf_wordRK ..

theorem movRR (ra rb : RegNum) : Statement (.movRR ra rb) := fun _ => opcodeOf_wordRR ..

theorem loadK (ra : RegNum) (k : Byte) : Statement (.loadK ra k) := fun _ => opcodeOf_wordRK ..

theorem loadR (ra rb : RegNum) : Statement (.loadR ra rb) := fun _ => opcodeOf_wordRR ..

theorem storeK (ra : RegNum) (k : Byte) : Statement (.storeK ra k) := fun _ => opcodeOf_wordRK ..

theorem storeR (ra rb : RegNum) : Statement (.storeR ra rb) := fun _ => opcodeOf_wordRR ..

theorem notR (ra : RegNum) : Statement (.notR ra) := fun _ => opcodeOf_wordR ..

theorem shlR (ra : RegNum) : Statement (.shlR ra) := fun _ => opcodeOf_wordR ..

theorem shrR (ra : RegNum) : Statement (.shrR ra) := fun _ => opcodeOf_wordR ..

theorem jmp (pck : Addr) : Statement (.jmp pck) := fun _ => opcodeOf_wordA ..

theorem jc (pck : Addr) : Statement (.jc pck) := fun _ => opcodeOf_wordA ..

theorem jz (pck : Addr) : Statement (.jz pck) := fun _ => opcodeOf_wordA ..

theorem call (pck : Addr) : Statement (.call pck) := fun _ => opcodeOf_wordA ..

theorem ret : Statement (.ret) := fun _ => opcodeOf_wordN ..

end Sys2Proof.Laws.OpcodeField
end

