-- ==== Sys2Proof/Laws/Step.lean ====
section
/-!
SUPPORT. What a step can do, said once.
-/

namespace Sys2Proof.Machine

/-- A fetch answers the word of the image at `pc`. -/
theorem fetch_ok {s : State} {ir : IWord} : fetch s = .ok ir ↔ s.program[s.pc.toNat]? = some ir := by
  unfold fetch iaddr
  split <;> simp_all

/-- The only stop of a fetch (R134). -/
theorem fetch_error {s : State} {f : Fault} : fetch s = .error f ↔
    s.program.length ≤ s.pc.toNat ∧ f = .fetchOutsideImage s.pc := by
  unfold fetch iaddr
  split <;> rename_i h
  · simp only [reduceCtorEq, false_iff, not_and]
    intro hl
    rw [List.getElem?_eq_none hl] at h
    cases h
  · simp only [Except.error.injEq, List.getElem?_eq_none_iff.mp h, true_and]
    exact eq_comm

/-- Decoding a fetched word is the decoder's answer under the state's opcode map. -/
theorem decodeFetched_ok {s : State} {ir : IWord} {i : Instr} :
    decodeFetched s ir = .ok i ↔ decode s.params.opcodeMap ir = .ok i := by
  unfold decodeFetched
  split <;> simp_all

/-- The only stop of the decoding (R132). -/
theorem decodeFetched_error {s : State} {ir : IWord} {f : Fault} (h : decodeFetched s ir = .error f) :
    f = .undefinedOpcodeStall s.pc ir ∧ opOf s.params.opcodeMap (opcodeOf ir) = none := by
  unfold decodeFetched at h
  split at h
  · cases h
  · rename_i e he
    cases h
    exact ⟨rfl, (decode_error he).1⟩

/-- Everything a step that answers a next state can be: a reset step, or the execution of the decoded instruction. -/
theorem step_next_cases {s t : State} (h : step s = .next t) :
    (s.resetIn = true ∧ t = resetStep s) ∨
    (s.resetIn = false ∧ ∃ ir i, s.program[s.pc.toNat]? = some ir ∧ decode s.params.opcodeMap ir = .ok i ∧
      exec i s = .next t) := by
  unfold step at h
  split at h
  · rename_i hr
    cases h
    exact .inl ⟨hr, rfl⟩
  · rename_i hr
    split at h
    · cases h
    · rename_i ir hf
      split at h
      · cases h
      · rename_i i hd
        exact .inr ⟨by simpa using hr, ir, i, fetch_ok.mp hf, decodeFetched_ok.mp hd, h⟩

end Sys2Proof.Machine
end

