-- ==== Sys2Proof/Tests/Slice0.lean ====
section
/-!
SUPPORT. The model's own tests. The words are written out from the encoding tables of spec/30_encoding.md R47; the expected
results are those of spec/95_test_vectors.md, by section, never the model's own answers. The last part holds, for every statement
with hypotheses, a state and operands that meet them.
-/

namespace Sys2Proof.Tests

open Sys2Proof.Machine Sys2Proof.Claims

/-! ### Well-formedness: each check refuses an ill-formed term -/

/-- Two instructions with one opcode. -/
theorem test_map_with_a_collision_is_refused :
    OpcodeMap.wf (#v[0, 1, 1, 3, 4, 5, 6, 7, 8, 9, 10, 11, 12, 13, 14, 15, 16, 17, 18, 19, 20, 21, 22, 23, 24]) = false := by
  decide

theorem test_default_map_is_accepted : defaultParams.wf = true := by decide

theorem test_empty_image_is_refused : imageWf [] = false := by decide

theorem test_image_of_2049_words_is_refused : imageWf (List.replicate 2049 0) = false := by
  simp only [imageWf, List.length_replicate]
  decide

theorem test_image_of_2048_words_is_accepted : imageWf (List.replicate 2048 0) = true := by
  simp only [imageWf, List.length_replicate]
  decide

/-! ### Decoding: one word for every constructor, its fields filled in the pattern of R47 by hand -/

theorem test_decode_nop : decodeTableWord 16 0b0000000000000000 = some .nop := by decide
theorem test_decode_addRK : decodeTableWord 16 0b0000110111111110 = some (.addRK 5 0xFE) := by decide
theorem test_decode_addRR : decodeTableWord 16 0b0001010111000000 = some (.addRR 5 6) := by decide
theorem test_decode_subRK : decodeTableWord 16 0b0001110111111110 = some (.subRK 5 0xFE) := by decide
theorem test_decode_subRR : decodeTableWord 16 0b0010010111000000 = some (.subRR 5 6) := by decide
theorem test_decode_andRK : decodeTableWord 16 0b0010110111111110 = some (.andRK 5 0xFE) := by decide
theorem test_decode_andRR : decodeTableWord 16 0b0011010111000000 = some (.andRR 5 6) := by decide
theorem test_decode_orRK : decodeTableWord 16 0b0011110111111110 = some (.orRK 5 0xFE) := by decide
theorem test_decode_orRR : decodeTableWord 16 0b0100010111000000 = some (.orRR 5 6) := by decide
theorem test_decode_cmpRK : decodeTableWord 16 0b0100110111111110 = some (.cmpRK 5 0xFE) := by decide
theorem test_decode_cmpRR : decodeTableWord 16 0b0101010111000000 = some (.cmpRR 5 6) := by decide
theorem test_decode_movRK : decodeTableWord 16 0b0101110111111110 = some (.movRK 5 0xFE) := by decide
theorem test_decode_movRR : decodeTableWord 16 0b0110010111000000 = some (.movRR 5 6) := by decide
theorem test_decode_loadK : decodeTableWord 16 0b0110110111111110 = some (.loadK 5 0xFE) := by decide
theorem test_decode_loadR : decodeTableWord 16 0b0111010111000000 = some (.loadR 5 6) := by decide
theorem test_decode_storeK : decodeTableWord 16 0b0111110111111110 = some (.storeK 5 0xFE) := by decide
theorem test_decode_storeR : decodeTableWord 16 0b1000010111000000 = some (.storeR 5 6) := by decide
theorem test_decode_notR : decodeTableWord 16 0b1000110100000000 = some (.notR 5) := by decide
theorem test_decode_shlR : decodeTableWord 16 0b1001010100000000 = some (.shlR 5) := by decide
theorem test_decode_shrR : decodeTableWord 16 0b1001110100000000 = some (.shrR 5) := by decide
theorem test_decode_jmp : decodeTableWord 16 0b1010010000000001 = some (.jmp 0x401) := by decide
theorem test_decode_jc : decodeTableWord 16 0b1010110000000001 = some (.jc 0x401) := by decide
theorem test_decode_jz : decodeTableWord 16 0b1011010000000001 = some (.jz 0x401) := by decide
theorem test_decode_call : decodeTableWord 16 0b1011110000000001 = some (.call 0x401) := by decide
theorem test_decode_ret : decodeTableWord 16 0b1100000000000000 = some .ret := by decide

/-- The lowest and the highest undefined opcode (section 2.6). -/
theorem test_decode_undefined : decodeTableWord 16 0xC800 = none ∧ decodeTableWord 16 0xFFFF = none := by decide

/-- Section 2.2, the unused-bit vector: 0x1275 is read as 0x1260. -/
theorem test_decode_unused_bits : decodeTableWord 16 0x1275 = some (.addRR 2 3) := by decide

/-- The encoder writes the example words of R72, R101, R103 and R113. -/
theorem test_encode_examples :
    encode defaultOpcodeMap (.andRK 0 0x0F) = 0x280F ∧ encode defaultOpcodeMap (.loadR 2 3) = 0x7260 ∧
    encode defaultOpcodeMap (.storeR 4 6) = 0x84C0 ∧ encode defaultOpcodeMap (.call 0x100) = 0xB900 := by decide

/-! ### One step of a word -/

/-- A state at `pc` with the given flags and registers. -/
def st (pc : Addr) (c z : Bool) (regs : Vector Byte 8) : State :=
  { State.reset with pc := pc, carry := c, zero := z, regs := regs }

/-- The state after one step that fetches the word `w`. -/
def after (w : Nat) (s : State) : Option State :=
  match step (s.withFetchWord 16 w) with
  | .next t => some t
  | _ => none

/-- The stop of one step that fetches the word `w`. -/
def stop (w : Nat) (s : State) : Option Fault :=
  match step (s.withFetchWord 16 w) with
  | .fault f => some f
  | _ => none

/-- A register, the flags and `pc`. -/
def see (r : RegNum) (t : State) : Byte × Bool × Bool × Addr := (readReg t r, t.carry, t.zero, t.pc)

/-! Section 2.2. -/

theorem test_add_literal_carries :
    (after 0x0910 (st 0 false false #v[0, 0xF8, 0, 0, 0, 0, 0, 0])).map (see 1) = some (0x08, true, false, 1) := by decide
theorem test_add_zero_clears_carry :
    (after 0x0800 (st 0 true false #v[0, 0, 0, 0, 0, 0, 0, 0])).map (see 0) = some (0, false, true, 1) := by decide
theorem test_add_result_zero_with_carry :
    (after 0x1260 (st 0 false false #v[0, 0, 0x80, 0x80, 0, 0, 0, 0])).map (see 2) = some (0, true, false, 1) := by decide
theorem test_add_same_register :
    (after 0x1120 (st 0 false false #v[0, 0x81, 0, 0, 0, 0, 0, 0])).map (see 1) = some (0x02, true, false, 1) := by decide
theorem test_and_literal :
    (after 0x280F (st 0 true false #v[0xA5, 0, 0, 0, 0, 0, 0, 0])).map (see 0) = some (0x05, false, false, 1) := by decide
theorem test_and_register :
    (after 0x34A0 (st 0 false false #v[0, 0, 0, 0, 0xF0, 0x0F, 0, 0])).map (see 4) = some (0, false, true, 1) := by decide
theorem test_or_literal :
    (after 0x3B80 (st 0 false false #v[0, 0, 0, 0x01, 0, 0, 0, 0])).map (see 3) = some (0x81, false, false, 1) := by decide
theorem test_or_register :
    (after 0x46E0 (st 0 false false #v[0, 0, 0, 0, 0, 0, 0, 0])).map (see 6) = some (0, false, true, 1) := by decide
theorem test_sub_literal_borrows :
    (after 0x1801 (st 0 false false #v[0, 0, 0, 0, 0, 0, 0, 0])).map (see 0) = some (0xFF, true, false, 1) := by decide
theorem test_sub_literal_0xFF :
    (after 0x18FF (st 0 false false #v[0, 0, 0, 0, 0, 0, 0, 0])).map (see 0) = some (0x01, true, false, 1) := by decide
theorem test_sub_register :
    (after 0x2140 (st 0 false false #v[0, 0x50, 0x50, 0, 0, 0, 0, 0])).map (see 1) = some (0, false, true, 1) := by decide
theorem test_cmp_literal_less :
    (after 0x4A30 (st 0 false false #v[0, 0, 0x20, 0, 0, 0, 0, 0])).map (see 2) = some (0x20, true, false, 1) := by decide
theorem test_cmp_register_greater :
    (after 0x5020 (st 0 true true #v[0x40, 0x10, 0, 0, 0, 0, 0, 0])).map (see 0) = some (0x40, false, false, 1) := by decide
theorem test_mov_literal_zero :
    (after 0x5D00 (st 0 true false #v[0, 0, 0, 0, 0, 0x77, 0, 0])).map (see 5) = some (0, false, true, 1) := by decide
theorem test_mov_register :
    (after 0x6760 (st 0 true true #v[0, 0, 0, 0xC3, 0, 0, 0, 0])).map (see 7) = some (0xC3, false, false, 1) := by decide
theorem test_not_wide :
    (after 0x8900 (st 0 false false #v[0, 0xFF, 0, 0, 0, 0, 0, 0])).map (see 1) = some (0, true, false, 1) := by decide
theorem test_not_narrow :
    (after 0x8900 { st 0 true false #v[0, 0xFF, 0, 0, 0, 0, 0, 0] with
      params := { defaultParams with notExt := .narrow } }).map (see 1) = some (0, false, true, 1) := by decide
theorem test_shl :
    (after 0x9200 (st 0 false false #v[0, 0, 0xC1, 0, 0, 0, 0, 0])).map (see 2) = some (0x82, true, false, 1) := by decide
theorem test_shl_result_zero_with_carry :
    (after 0x9200 (st 0 false false #v[0, 0, 0x80, 0, 0, 0, 0, 0])).map (see 2) = some (0, true, false, 1) := by decide
theorem test_shr :
    (after 0x9B00 (st 0 true false #v[0, 0, 0, 0x81, 0, 0, 0, 0])).map (see 3) = some (0x40, false, false, 1) := by decide
theorem test_shr_one :
    (after 0x9B00 (st 0 true false #v[0, 0, 0, 0x01, 0, 0, 0, 0])).map (see 3) = some (0, false, true, 1) := by decide

/-! Section 2.3. -/

theorem test_load_absolute :
    (after 0x6905 { st 0 true true #v[0, 0, 0, 0, 0, 0, 0, 0] with mem := [(5, 0x2A)] }).map
      (fun t => (see 1 t, t.busLog)) = some ((0x2A, true, true, 1), [.read 5 0x2A]) := by decide
theorem test_load_indirect_from_its_own_register :
    (after 0x7120 { st 0 false false #v[0, 0x40, 0, 0, 0, 0, 0, 0] with mem := [(0x40, 0x07)] }).map
      (fun t => (see 1 t, t.busLog)) = some ((0x07, false, false, 1), [.read 0x40 0x07]) := by decide
theorem test_store_absolute :
    (after 0x7805 { st 0 true false #v[0x2A, 0, 0, 0, 0, 0, 0, 0] with mem := [(4, 1), (9, 2)] }).map
      (fun t => (see 0 t, t.mem, t.busLog)) =
    some ((0x2A, true, false, 1), [(4, 1), (5, 0x2A), (9, 2)], [.write 5 0x2A]) := by decide
theorem test_store_indirect :
    (after 0x84C0 (st 0 false false #v[0, 0, 0, 0, 0x11, 0, 0xF0, 0])).map (fun t => (t.mem, t.busLog)) =
    some ([(0xF0, 0x11)], [.write 0xF0 0x11]) := by decide

/-! Section 2.4. -/

theorem test_jmp : (after 0xA7FF (st 0x010 false false #v[0, 0, 0, 0, 0, 0, 0, 0])).map (·.pc) = some 0x7FF := by decide
theorem test_jc_taken : (after 0xA810 (st 0x005 true false #v[0, 0, 0, 0, 0, 0, 0, 0])).map (·.pc) = some 0x010 := by decide
theorem test_jc_not_taken :
    (after 0xA810 (st 0x005 false true #v[0, 0, 0, 0, 0, 0, 0, 0])).map (·.pc) = some 0x006 := by decide
theorem test_jz_taken : (after 0xB7FF (st 0x001 false true #v[0, 0, 0, 0, 0, 0, 0, 0])).map (·.pc) = some 0x7FF := by decide
theorem test_jz_not_taken :
    (after 0xB7FF (st 0x001 true false #v[0, 0, 0, 0, 0, 0, 0, 0])).map (·.pc) = some 0x002 := by decide
theorem test_call :
    (after 0xB900 (st 0x020 false false #v[0, 0, 0, 0, 0, 0, 0, 0])).map (fun t => (t.pc, t.sp, stkAt t 0)) =
    some (0x100, 1, 0x021) := by decide
theorem test_call_overflow :
    stop 0xB900 { st 0x020 false false #v[0, 0, 0, 0, 0, 0, 0, 0] with sp := 16 } = some (.stackOverflow 0x020) := by decide
theorem test_ret :
    (after 0xC000 { State.reset with sp := 1, stk := [0x021, 0] }).map (fun t => (t.pc, t.sp)) = some (0x021, 0) := by decide
theorem test_ret_underflow :
    stop 0xC000 (st 0x030 false false #v[0, 0, 0, 0, 0, 0, 0, 0]) = some (.stackUnderflow 0x030) := by decide
theorem test_nop : (after 0x0000 (st 0x007 false false #v[0, 0, 0, 0, 0, 0, 0, 0])).map (·.pc) = some 0x008 := by decide

/-! Section 2.5: the rows where the policies differ from `fault`, one step each, `STACK_DEPTH = 2`. -/

/-- A two-entry stack under a policy. -/
def st2 (p : StackPolicy) (pc : Addr) (sp : Nat) (stk : List Addr) : State :=
  { State.reset with pc := pc, sp := sp, stk := stk, params := { defaultParams with stackPolicy := p } }

/-- `pc`, `SP` and the entries. -/
def see2 (t : State) : Addr × Nat × List Addr := (t.pc, t.sp, t.stk)

theorem test_wrap_call_at_the_limit :
    (after 0xB803 (st2 .wrap 2 0 [0x001, 0x002])).map see2 = some (3, 1, [0x003, 0x002]) := by decide
theorem test_wrap_ret_below_zero :
    (after 0xC000 (st2 .wrap 3 0 [0x003, 0x002])).map see2 = some (2, 1, [0x003, 0x002]) := by decide
theorem test_saturate_call_at_the_limit :
    (after 0xB803 (st2 .saturate 2 2 [0x001, 0x002])).map see2 = some (3, 2, [0x001, 0x002]) := by decide
theorem test_saturate_ret_at_zero :
    (after 0xC000 (st2 .saturate 1 0 [0x001, 0x003])).map see2 = some (1, 0, [0x001, 0x003]) := by decide

/-! Section 2.6. -/

theorem test_undefined_opcode :
    stop 0xC800 (st 0x004 false false #v[0, 0, 0, 0, 0, 0, 0, 0]) = some (.undefinedOpcodeStall 0x004 0xC800) := by decide

/-- `reset` asserted while an undefined word is at `pc`. -/
def stalled : State :=
  { st 1 true true #v[1, 2, 3, 4, 5, 6, 7, 8] with resetIn := true, program := [0, 0xC800], sp := 3, mem := [(5, 1)] }

theorem test_reset_leaves_the_stall : step stalled = .next { stalled with
    pc := 0, sp := 0, carry := false, zero := false, regs := #v[0, 0, 0, 0, 0, 0, 0, 0] } := rfl

theorem test_fetch_outside_a_three_word_image :
    step { State.reset with pc := 3, program := [0, 0, 0] } = .fault (.fetchOutsideImage 3) := rfl

/-! ### The assembler (R50, R51) -/

/-- A number outside its field is refused: `K = 256`, `R8`, `PCK = 2048` (R51). -/
theorem test_assembler_refuses_numbers_out_of_range :
    asmInstr (fun _ => none) .add [.reg 0, .num 256] = none ∧ asmInstr (fun _ => none) .not [.reg 8] = none ∧
    asmInstr (fun _ => none) .jmp [.num 2048] = none := by decide

/-- Program P6's first line and a loop with a label: `MOV R1, 7` and `halt: JMP halt` at address 1 (section 3). -/
theorem test_assembler_resolves_a_label :
    assemble defaultOpcodeMap
      [{ op := .mov, args := [.reg 1, .num 7] }, { label := some "halt", op := .jmp, args := [.label "halt"] }] =
    some [0x5907, 0xA001] := by decide

/-! ### Witnesses: the hypotheses of each statement are met together -/

/-- Two words of NOP, an ADD and a CALL to work with. -/
def base : State := { State.reset with program := [0x0000, 0x0910, 0xB803, 0xC000], mem := [(5, 0x2A)] }

/-- A sound two-entry stack under a policy. -/
theorem sound_st2 (p : StackPolicy) (sp : Nat) (h : sp < 2) : Inv (st2 p 0 sp [0x001, 0x002]) :=
  ⟨Nat.le_of_ble_eq_true rfl, Nat.le_of_lt h, fun _ => h, defaultOpcodeMap_wf, Nat.zero_le _, rfl⟩

theorem test_witness_reset_asserted : stalled.resetIn = true := rfl

theorem test_witness_reset_then_word_at_zero :
    stalled.resetIn = true ∧ stalled.program[0]? = some 0 ∧ decode stalled.params.opcodeMap 0 = .ok .nop := by decide

theorem test_witness_step_runs_decoded :
    base.resetIn = false ∧ base.program[base.pc.toNat]? = some 0 ∧ decode base.params.opcodeMap 0 = .ok .nop ∧
    Instr.nop.wf = true := by decide

theorem test_witness_fetch_outside :
    State.reset.resetIn = false ∧ State.reset.program.length ≤ State.reset.pc.toNat := by decide

theorem test_witness_undefined_opcode :
    (st 0 false false #v[0, 0, 0, 0, 0, 0, 0, 0] |>.withFetchWord 16 0xC800).program[0]? = some 0xC800 ∧
    (Op.all.all fun o => defaultOpcodeMap.code o != opcodeOf 0xC800) = true := by decide

theorem test_witness_initial_sound :
    defaultParams.wf = true ∧ 1 ≤ ([7] : List Addr).length ∧ ([0] : List IWord).length ≤ 2048 := by decide

theorem test_witness_sound_step : Inv base ∧ ∃ t, step base = .next t :=
  ⟨⟨by decide, by decide, fun h => (by cases h), defaultOpcodeMap_wf, by decide, by decide⟩, _, rfl⟩

theorem test_witness_decode_encode : defaultOpcodeMap.wf = true ∧ (Instr.loadR 2 3).wf = true := by decide

theorem test_witness_unused_bits : decode defaultOpcodeMap 0x1275 = .ok (.addRR 2 3) ∧
    (0x1260 : IWord) &&& usedBits .addRR = 0x1275 &&& usedBits .addRR := by decide

theorem test_witness_datapath : base.resetIn = false := rfl

theorem test_witness_register_write_enabled :
    (controlWord defaultOpcodeMap 0x0910 false false).registerWrite = true := by decide

theorem test_witness_assembler_accepts :
    asmInstr (fun _ => some 4) .jmp [.label "L"] = some (.jmp 4) ∧
    asmInstr (fun _ => none) .mov [.mem 255, .reg 7] = some (.storeK 7 255) := by decide

theorem test_witness_assembled_label :
    assemble defaultOpcodeMap [{ label := some "L", op := .nop }] = some [0] ∧
    ([{ label := some "L", op := .nop }] : List AsmLine)[0]? = some { label := some "L", op := .nop } := by decide

theorem test_witness_not_wide : base.params.notExt = .wide := rfl

theorem test_witness_not_narrow : { base with params := { defaultParams with notExt := .narrow } }.params.notExt = .narrow := rfl

theorem test_witness_zero_result : (alu .wide .sub 7 7).result = 0 := by decide

theorem test_witness_load_plain :
    isIO base 5 = false ∧ memRead base.mem (5 : Byte).toNat = some 0x2A ∧
    ∃ rb, Instr.loadR 1 0 = .loadR 1 rb ∧ (0 : Byte) = readReg base rb :=
  ⟨by decide, by decide, 0, rfl, by decide⟩

theorem test_witness_store_to_io :
    isIO { base with params := { defaultParams with ioAddrs := [0, 255] } } 255 = true ∧ isIO base 255 = false ∧
    (0 : Nat) ≠ (255 : Byte).toNat ∧ ∃ rb, Instr.storeR 1 0 = .storeR 1 rb ∧ (0 : Byte) = readReg base rb :=
  ⟨by decide, by decide, by decide, 0, rfl, by decide⟩

/-- S7, `MOV [5], R0` then `MOV R1, [5]`, with nothing between. -/
theorem test_witness_store_load : isIO base 5 = false ∧ storeWrite base (.storeK 0 5) = some (5, 0) ∧
    ∃ t, exec (.storeK 0 5) base = .next t ∧ runsWithoutStoringAt 5 [] t t ∧ loadAddr t (.loadK 1 5) = some 5 ∧
      destination (.loadK 1 5) = some 1 :=
  ⟨by decide, by decide, _, rfl, rfl, rfl, rfl⟩

/-- The register forms at the lowest address, with stores to both its neighbours between (address 0 wraps to 255). -/
theorem test_witness_store_stores_load : isIO base 0 = false ∧ storeWrite base (.storeR 1 0) = some (0, 0) ∧
    (∀ i ∈ [Instr.storeK 2 255, .storeK 2 1], storeWrite base i ≠ none) ∧
    ∃ t u, exec (.storeR 1 0) base = .next t ∧ runsWithoutStoringAt 0 [.storeK 2 255, .storeK 2 1] t u ∧
      loadAddr u (.loadR 3 0) = some 0 ∧ destination (.loadR 3 0) = some 3 :=
  ⟨by decide, by decide, by decide, _, _, rfl,
    ⟨fun _ h => by simp [storeWrite] at h, _, rfl, fun _ h => by simp [storeWrite] at h, _, rfl, rfl⟩, by decide, rfl⟩

/-- An ALU instruction and a load between. -/
theorem test_witness_store_others_load : ∃ t u, exec (.storeK 1 0) base = .next t ∧
    runsWithoutStoringAt 0 [.addRK 1 1, .loadK 2 0] t u ∧ loadAddr u (.loadK 3 0) = some 0 :=
  ⟨_, _, rfl, ⟨fun v => by simp [storeWrite], _, rfl, fun v => by simp [storeWrite], _, rfl, rfl⟩, rfl⟩

theorem test_witness_bus_transactions :
    (∃ t, exec (.loadR 1 0) base = .next t) ∧ loadAddr base (.loadR 1 0) = some 0 ∧
    (∃ t, exec (.storeK 1 9) base = .next t) ∧ storeWrite base (.storeK 1 9) = some (9, 0) ∧
    (∃ t, exec .nop base = .next t) ∧ loadAddr base .nop = none ∧ storeWrite base .nop = none :=
  ⟨⟨_, rfl⟩, by decide, ⟨_, rfl⟩, by decide, ⟨_, rfl⟩, rfl, rfl⟩

/-- The four cases of CALL, at the last free entry and at the limit. -/
theorem test_witness_call_cases :
    ((st2 .fault 0 1 [1, 2]).params.stackPolicy ≠ .wrap ∧ (st2 .fault 0 1 [1, 2]).sp ≠ stackDepth (st2 .fault 0 1 [1, 2])) ∧
    (st2 .wrap 0 1 [1, 2]).params.stackPolicy = .wrap ∧
    ((st2 .saturate 0 2 [1, 2]).params.stackPolicy = .saturate ∧
      (st2 .saturate 0 2 [1, 2]).sp = stackDepth (st2 .saturate 0 2 [1, 2])) ∧
    ((st2 .fault 0 2 [1, 2]).params.stackPolicy = .fault ∧
      (st2 .fault 0 2 [1, 2]).sp = stackDepth (st2 .fault 0 2 [1, 2])) := by decide

/-- The four cases of RET, at one entry and at none. -/
theorem test_witness_ret_cases :
    (Inv (st2 .fault 0 1 [0x001, 0x002]) ∧ (st2 .fault 0 1 [0x001, 0x002]).sp ≠ 0) ∧
    (Inv (st2 .wrap 0 0 [0x001, 0x002]) ∧ (st2 .wrap 0 0 [0x001, 0x002]).sp = 0) ∧
    (Inv (st2 .saturate 0 0 [0x001, 0x002]) ∧ (st2 .saturate 0 0 [0x001, 0x002]).sp = 0) ∧
    (Inv (st2 .fault 0 0 [0x001, 0x002]) ∧ (st2 .fault 0 0 [0x001, 0x002]).sp = 0) :=
  ⟨⟨sound_st2 _ _ (by decide), by decide⟩, ⟨sound_st2 _ _ (by decide), rfl⟩, ⟨sound_st2 _ _ (by decide), rfl⟩,
    ⟨sound_st2 _ _ (by decide), rfl⟩⟩

theorem test_witness_call_then_ret :
    (Inv (st2 .wrap 0 1 [0x001, 0x002]) ∧ ∃ t, exec (.call 9) (st2 .wrap 0 1 [0x001, 0x002]) = .next t) ∧
    (Inv (st2 .saturate 0 1 [0x001, 0x002]) ∧
      (st2 .saturate 0 1 [0x001, 0x002]).sp ≠ stackDepth (st2 .saturate 0 1 [0x001, 0x002]) ∧
      ∃ t, exec (.call 9) (st2 .saturate 0 1 [0x001, 0x002]) = .next t) :=
  ⟨⟨sound_st2 _ _ (by decide), _, rfl⟩, sound_st2 _ _ (by decide), by decide, _, rfl⟩

theorem test_witness_full_depth_of_calls :
    (st2 .fault 0 0 [1, 2]).params.stackPolicy = .fault ∧ (st2 .fault 0 0 [1, 2]).sp = 0 ∧
    ([5, 6] : List Addr).length = stackDepth (st2 .fault 0 0 [1, 2]) := by decide

theorem test_witness_nested_calls :
    (st2 .saturate 0 1 [1, 2]).params.stackPolicy ≠ .wrap ∧
    (st2 .saturate 0 1 [1, 2]).sp + ([5] : List Addr).length ≤ stackDepth (st2 .saturate 0 1 [1, 2]) := by decide

theorem test_witness_pc_at_the_top : (st2 .fault 2047 1 [1, 2]).pc = 2047 ∧
    (st2 .fault 2047 1 [1, 2]).sp < stackDepth (st2 .fault 2047 1 [1, 2]) ∧
    ∃ t, exec (.call 9) (st2 .fault 2047 1 [1, 2]) = .next t :=
  ⟨rfl, by decide, _, rfl⟩

theorem test_witness_other_register :
    (∃ t, exec (.addRK 1 1) base = .next t) ∧ destination (.addRK 1 1) ≠ some 2 := ⟨⟨_, rfl⟩, by decide⟩

theorem test_witness_flags :
    writesFlags (.loadK 1 5) = false ∧ (∃ t, exec (.loadK 1 5) base = .next t) ∧ readsFlags .ret = false ∧
    exec .ret State.reset = .fault (.stackUnderflow 0) := ⟨rfl, ⟨_, rfl⟩, rfl, rfl⟩

theorem test_witness_stack_untouched :
    (∀ pck, Instr.nop ≠ .call pck) ∧ Instr.nop ≠ .ret ∧ (∃ t, exec .ret (st2 .wrap 0 1 [1, 2]) = .next t) ∧
    (∃ t, exec (.call 9) (st2 .fault 0 1 [1, 2]) = .next t) ∧
    ([7, 8] : List Addr).length = stackDepth (st2 .fault 0 1 [1, 2]) :=
  ⟨fun _ h => (by cases h), by decide, ⟨_, rfl⟩, ⟨_, rfl⟩, rfl⟩

theorem test_witness_may_run_at_the_limit :
    (st2 .saturate 0 2 [1, 2]).params.stackPolicy ≠ .fault ∧ (∀ pck, Instr.nop ≠ .call pck) ∧ Instr.nop ≠ .ret :=
  ⟨by decide, fun _ h => (by cases h), by decide⟩

theorem test_witness_compare :
    Instr.cmpRK 1 9 = .cmpRK 1 9 ∧ ∃ rb, Instr.cmpRR 1 2 = .cmpRR 1 rb ∧ (0 : Byte) = readReg base rb :=
  ⟨rfl, 2, rfl, by decide⟩

/-- Program P8: RET with an empty stack stops at once (section 3). -/
theorem test_witness_run_stops :
    runTo [] 3 { State.reset with program := [0xC000] } = .stopped (.stackUnderflow 0) { State.reset with program := [0xC000] } :=
  rfl

theorem test_witness_stop : step { State.reset with program := [0xC000] } = .fault (.stackUnderflow 0) := rfl

/-- Two NOPs, then the end address: within five steps, within exactly two, and not within one. -/
theorem test_witness_run_ends :
    (∃ t, runTo [2] 5 { State.reset with program := [0, 0, 0xA002] } = .ended t ∧ t.pc = 2) ∧
    (∃ t, runTo [2] 2 { State.reset with program := [0, 0, 0xA002] } = .ended t ∧ t.pc = 2) ∧
    ∃ t, runTo [2] 1 { State.reset with program := [0, 0, 0xA002] } = .running t ∧ t.pc = 1 :=
  ⟨⟨_, rfl, rfl⟩, ⟨_, rfl, rfl⟩, ⟨_, rfl, rfl⟩⟩

/-- A run whose first state is at an end address ends at once, though its step would stop. -/
theorem test_run_ends_before_the_stop :
    runTo [0] 3 { State.reset with program := [0xC000] } = .ended { State.reset with program := [0xC000] } := rfl

end Sys2Proof.Tests
end

section
/-!
SUPPORT and PROOFS. What an initial state of a run holds (R29, R152, D20), that it is sound (R5, R24, R47), and that the
machine's reset state is the one at the spec's default parameters.
-/

namespace Sys2Proof.Machine

/-! ### The fields of an initial state -/

section
variable (p : Params) (stackInit : List Addr) (image : List IWord)

@[simp] theorem initial_regs : (State.initial p stackInit image).regs = p.regReset := rfl
@[simp] theorem initial_pc : (State.initial p stackInit image).pc = 0 := rfl
@[simp] theorem initial_carry : (State.initial p stackInit image).carry = p.carryReset := rfl
@[simp] theorem initial_zero : (State.initial p stackInit image).zero = p.zeroReset := rfl
@[simp] theorem initial_stk : (State.initial p stackInit image).stk = stackInit := rfl
@[simp] theorem initial_sp : (State.initial p stackInit image).sp = 0 := rfl
@[simp] theorem initial_resetIn : (State.initial p stackInit image).resetIn = false := rfl
@[simp] theorem initial_program : (State.initial p stackInit image).program = image := rfl
@[simp] theorem initial_mem : (State.initial p stackInit image).mem = [] := rfl
@[simp] theorem initial_busLog : (State.initial p stackInit image).busLog = [] := rfl
@[simp] theorem initial_params : (State.initial p stackInit image).params = p := rfl

/-- `STACK_DEPTH` is the number of the entries `STACK_INIT` (R23). -/
@[simp] theorem stackDepth_initial : stackDepth (State.initial p stackInit image) = stackInit.length := rfl

/-- Every register starts with its value of `REG_RESET` (R152). -/
@[simp] theorem readReg_initial (r : RegNum) :
    readReg (State.initial p stackInit image) r = p.regReset[r.toNat]'r.isLt := rfl

end

/-! ### The default parameters -/

/-- The default opcode of an instruction is the number of its row in the table (R47, D1). -/
theorem defaultOpcodeMap_code (o : Op) : defaultOpcodeMap.code o = BitVec.ofNat 5 o.index := by
  cases o <;> rfl

/-- `REG_RESET` is 0 in every register by default (D7). -/
theorem defaultParams_regReset : defaultParams.regReset = Vector.replicate 8 0 := rfl

theorem defaultStackInit_length : defaultStackInit.length = 16 := List.length_replicate

theorem defaultParams_wf : defaultParams.wf = true := defaultOpcodeMap_wf

/-- Every register of the reset state holds 0 (D7). -/
theorem readReg_reset (r : RegNum) : readReg State.reset r = 0 := by
  simp [State.reset, defaultParams_regReset]

/-! ### Soundness of the initial states -/

/-- An initial state is sound: its stack pointer is 0, which is below any depth of at least 1 whatever the policy, and
its data memory is empty; the rest is what R5 asks of the parameters. -/
theorem inv_initial {p : Params} {stackInit : List Addr} {image : List IWord} (hp : p.wf = true)
    (hdepth : 1 ≤ stackInit.length) (himage : image.length ≤ 2048) : Inv (State.initial p stackInit image) where
  depth   := hdepth
  sp      := Nat.zero_le _
  spWrap  := fun _ => hdepth
  params  := hp
  program := himage
  mem     := rfl

theorem inv_reset : Inv State.reset :=
  inv_initial defaultParams_wf (by simp [defaultStackInit_length]) (Nat.zero_le _)

end Sys2Proof.Machine

namespace Sys2Proof.Claims

open Sys2Proof.Machine

/-- Settles O3: the reset state is the initial state at the default parameters, so each value is read off that state's
fields; the 25 opcodes are the rows' numbers. -/
theorem resetStateHasTheDefaultParameters : Obligations.ResetStateHasTheDefaultParameters := by
  refine ⟨rfl, rfl, rfl, rfl, rfl, readReg_reset, rfl, rfl, defaultStackInit_length, ?_⟩
  simp [State.reset, defaultParams, defaultOpcodeMap_code, Op.index]

/-- Settles O8, from the soundness of every initial state with well-formed parameters. -/
theorem initialStatesAreSound : Obligations.InitialStatesAreSound :=
  ⟨inv_reset, fun _ _ _ => inv_initial⟩

end Sys2Proof.Claims
end

section
/-!
SUPPORT. What an instruction can do, said once: it computes in the ALU, loads, stores, moves `pc`, or it is CALL or RET;
and what each push and pop answers. The rules about the state below go through these seven cases, not through the 25
instructions.
-/

namespace Sys2Proof.Machine

open Sys2Proof.Claims

/-- The seven courses an instruction can take, each with the register and the flags it writes and the flags it reads. A
course is the same from every state: operand 2 is the mux of R58, and the next address of a transfer is a function of `pc`
and the flags alone (R62). -/
inductive Course (i : Instr) : Prop where
  | aluToReg (f : AluFn) (ra : RegNum) (sel : OperandSel) (k : Byte) (rb : RegNum)
      (hdest : destination i = some ra) (hwrites : writesFlags i = true)
      (hexec : ∀ s, exec i s = .next (aluToReg f ra (operand2 sel k rb s) s))
  | aluToFlags (f : AluFn) (ra : RegNum) (sel : OperandSel) (k : Byte) (rb : RegNum)
      (hwrites : writesFlags i = true)
      (hexec : ∀ s, exec i s = .next (aluToFlags f ra (operand2 sel k rb s) s))
  | load (ra : RegNum) (sel : OperandSel) (k : Byte) (rb : RegNum)
      (hdest : destination i = some ra) (hwrites : writesFlags i = false)
      (hexec : ∀ s, exec i s = .next (loadFrom ra (operand2 sel k rb s) s))
  | store (ra : RegNum) (sel : OperandSel) (k : Byte) (rb : RegNum) (hwrites : writesFlags i = false)
      (hexec : ∀ s, exec i s = .next (storeTo ra (operand2 sel k rb s) s))
  | transfer (target : Addr → Bool → Bool → Addr) (hwrites : writesFlags i = false)
      (hreads : readsFlags i = false → ∀ a c z c' z', target a c z = target a c' z')
      (hexec : ∀ s, exec i s = .next (setPc s (target s.pc s.carry s.zero)))
  | call (pck : Addr) (hi : i = .call pck)
  | ret (hi : i = .ret)

/-- A conditional jump is a transfer whose target the flag selects. -/
theorem jumpIf_eq (flag : Bool) (pck : Addr) (s : State) :
    jumpIf flag pck s = setPc s (if flag then pck else s.pc + 1) := by
  cases flag <;> rfl

/-- Every instruction takes one of the seven courses. -/
theorem course (i : Instr) : Course i := by
  cases i with
  | nop => exact .transfer (fun a _ _ => a + 1) rfl (fun _ _ _ _ _ _ => rfl) fun _ => rfl
  | addRK ra k => exact .aluToReg .add ra .lit k 0 rfl rfl fun _ => rfl
  | addRR ra rb => exact .aluToReg .add ra .reg 0 rb rfl rfl fun _ => rfl
  | subRK ra k => exact .aluToReg .sub ra .lit k 0 rfl rfl fun _ => rfl
  | subRR ra rb => exact .aluToReg .sub ra .reg 0 rb rfl rfl fun _ => rfl
  | andRK ra k => exact .aluToReg .and ra .lit k 0 rfl rfl fun _ => rfl
  | andRR ra rb => exact .aluToReg .and ra .reg 0 rb rfl rfl fun _ => rfl
  | orRK ra k => exact .aluToReg .or ra .lit k 0 rfl rfl fun _ => rfl
  | orRR ra rb => exact .aluToReg .or ra .reg 0 rb rfl rfl fun _ => rfl
  | cmpRK ra k => exact .aluToFlags .sub ra .lit k 0 rfl fun _ => rfl
  | cmpRR ra rb => exact .aluToFlags .sub ra .reg 0 rb rfl fun _ => rfl
  | movRK ra k => exact .aluToReg .passB ra .lit k 0 rfl rfl fun _ => rfl
  | movRR ra rb => exact .aluToReg .passB ra .reg 0 rb rfl rfl fun _ => rfl
  | loadK ra k => exact .load ra .lit k 0 rfl rfl fun _ => rfl
  | loadR ra rb => exact .load ra .reg 0 rb rfl rfl fun _ => rfl
  | storeK ra k => exact .store ra .lit k 0 rfl fun _ => rfl
  | storeR ra rb => exact .store ra .reg 0 rb rfl fun _ => rfl
  | notR ra => exact .aluToReg .not ra .lit 0 0 rfl rfl fun _ => rfl
  | shlR ra => exact .aluToReg .shl ra .lit 0 0 rfl rfl fun _ => rfl
  | shrR ra => exact .aluToReg .shr ra .lit 0 0 rfl rfl fun _ => rfl
  | jmp pck => exact .transfer (fun _ _ _ => pck) rfl (fun _ _ _ _ _ _ => rfl) fun _ => rfl
  | jc pck =>
    exact .transfer (fun a c _ => if c then pck else a + 1) rfl (fun h => by cases h)
      fun s => congrArg _ (jumpIf_eq s.carry pck s)
  | jz pck =>
    exact .transfer (fun a _ z => if z then pck else a + 1) rfl (fun h => by cases h)
      fun s => congrArg _ (jumpIf_eq s.zero pck s)
  | call pck => exact .call pck rfl
  | ret => exact .ret rfl

/-! ### What a push answers, from its cause -/

section
variable {s : State} (v : Addr)

/-- Under `wrap` a push always writes its entry. -/
theorem push_of_wrap (hp : s.params.stackPolicy = .wrap) :
    push v s = .ok { s with stk := s.stk.set s.sp v, sp := (s.sp + 1) % stackDepth s } := by
  simp [push, hp]

/-- Under the other policies a push on a stack that is not full writes the next entry. -/
theorem push_of_room (hp : s.params.stackPolicy ≠ .wrap) (hroom : s.sp ≠ stackDepth s) :
    push v s = .ok { s with stk := s.stk.set s.sp v, sp := s.sp + 1 } := by
  cases h : s.params.stackPolicy with
  | fault => simp [push, h, hroom]
  | wrap => exact absurd h hp
  | saturate => simp [push, h, hroom]

/-- Under `saturate` a push on a full stack does nothing. -/
theorem push_of_saturated (hp : s.params.stackPolicy = .saturate) (hfull : s.sp = stackDepth s) :
    push v s = .ok s := by
  simp [push, hp, hfull]

end

/-- Reading the entries after one of them was written. -/
theorem stkAt_of_set {s t : State} {n : Nat} {v : Addr} (hstk : t.stk = s.stk.set n v) (hn : n < stackDepth s)
    (j : Nat) : stkAt t j = if j = n then v else stkAt s j := by
  have hlen : n < s.stk.length := hn
  simp only [stkAt, hstk, List.getD_eq_getElem?_getD, List.getElem?_set, hlen]
  by_cases h : n = j
  · simp [h]
  · simp [h, Ne.symm h]

/-! ### CALL and RET -/

/-- `CALL` from what its push answers. -/
theorem execCall_of_push {s u : State} {pck : Addr} (h : push (s.pc + 1) s = .ok u) :
    exec (.call pck) s = .next (setPc u pck) := by
  simp only [exec, execCall, h]

/-- `CALL` changes the stack and `pc`, and nothing else (R113). -/
theorem execCall_frame {s t : State} {pck : Addr} (h : execCall pck s = .next t) :
    ∃ stk sp, t = { s with stk := stk, sp := sp, pc := pck } := by
  obtain ⟨u, hu, rfl⟩ := execCall_next h
  rcases push_cases hu with ⟨sp, rfl, -⟩ | ⟨-, -, rfl⟩
  · exact ⟨_, sp, rfl⟩
  · exact ⟨_, _, rfl⟩

/-- `RET` changes the stack pointer and `pc`, and nothing else: it writes no entry (R114). -/
theorem execRet_frame {s t : State} (h : execRet s = .next t) :
    ∃ sp a, t = { s with sp := sp, pc := a } := by
  obtain ⟨v, u, hu, rfl⟩ := execRet_next h
  obtain ⟨sp, rfl, -, -⟩ := pop_cases hu
  exact ⟨sp, v, rfl⟩

end Sys2Proof.Machine
end

section
/-!
PROOFS. Every step keeps a sound state sound (R24, R30, R47).
-/

namespace Sys2Proof.Machine

/-- What has to be said of an update for it to keep soundness: it leaves the depth, the parameters and the program alone,
keeps the stack pointer within the bounds of the policy and the memory canonical. -/
theorem inv_of_frame {s t : State} (h : Inv s) (hdepth : stackDepth t = stackDepth s) (hparams : t.params = s.params)
    (hprogram : t.program = s.program) (hsp : t.sp ≤ stackDepth s)
    (hwrap : s.params.stackPolicy = .wrap → t.sp < stackDepth s) (hmem : Memory.wf t.mem = true) : Inv t where
  depth   := hdepth ▸ h.depth
  sp      := hdepth ▸ hsp
  spWrap  := by rw [hdepth, hparams]; exact hwrap
  params  := hparams ▸ h.params
  program := hprogram ▸ h.program
  mem     := hmem

theorem inv_resetStep {s : State} (h : Inv s) : Inv (resetStep s) :=
  inv_of_frame h rfl rfl rfl (Nat.zero_le _) (fun _ => h.depth) h.mem

theorem inv_setPc {s : State} (h : Inv s) (a : Addr) : Inv (setPc s a) :=
  inv_of_frame h rfl rfl rfl h.sp h.spWrap h.mem

/-- The stack pointer after a push stays within its bounds: `wrap` reduces it modulo the depth, the others move it only
below the depth (R60). -/
theorem inv_push {v : Addr} {s t : State} (hs : Inv s) (h : push v s = .ok t) : Inv t := by
  have hle := hs.sp
  rcases push_cases h with ⟨sp, rfl, hsp⟩ | ⟨-, -, rfl⟩
  · have hlen : stackDepth { s with stk := s.stk.set s.sp v, sp := sp } = stackDepth s := List.length_set
    rcases hsp with ⟨-, rfl⟩ | ⟨hp, hroom, rfl⟩
    · have hlt := Nat.mod_lt (s.sp + 1) hs.depth
      exact inv_of_frame hs hlen rfl rfl hlt.le (fun _ => hlt) hs.mem
    · exact inv_of_frame hs hlen rfl rfl (Nat.lt_of_le_of_ne hle hroom) (fun hw => absurd hw hp) hs.mem
  · exact hs

/-- The stack pointer after a pop stays within its bounds (R61). -/
theorem inv_pop {v : Addr} {s t : State} (hs : Inv s) (h : pop s = .ok (v, t)) : Inv t := by
  have hle := hs.sp
  obtain ⟨sp, rfl, -, hsp⟩ := pop_cases h
  rcases hsp with ⟨-, rfl⟩ | ⟨hp, -, rfl⟩ | ⟨hp, -, rfl⟩
  · have hlt := Nat.mod_lt (s.sp + stackDepth s - 1) hs.depth
    exact inv_of_frame hs rfl rfl rfl hlt.le (fun _ => hlt) hs.mem
  · exact inv_of_frame hs rfl rfl rfl ((Nat.sub_le ..).trans hle) (fun hw => absurd hw hp) hs.mem
  · exact inv_of_frame hs rfl rfl rfl (Nat.zero_le _) (fun _ => hs.depth) hs.mem

/-- No instruction leaves the sound states: only a store writes the memory, only CALL and RET move the stack pointer. -/
theorem inv_exec {i : Instr} {s t : State} (hs : Inv s) (h : exec i s = .next t) : Inv t := by
  cases course i with
  | aluToReg f ra sel k rb _ _ hexec =>
    cases (hexec s).symm.trans h
    exact inv_of_frame hs rfl rfl rfl hs.sp hs.spWrap hs.mem
  | aluToFlags f ra sel k rb _ hexec =>
    cases (hexec s).symm.trans h
    exact inv_of_frame hs rfl rfl rfl hs.sp hs.spWrap hs.mem
  | load ra sel k rb _ _ hexec =>
    cases (hexec s).symm.trans h
    exact inv_of_frame hs rfl rfl rfl hs.sp hs.spWrap hs.mem
  | store ra sel k rb _ hexec =>
    cases (hexec s).symm.trans h
    exact inv_of_frame hs rfl rfl rfl hs.sp hs.spWrap (memory_wf_busWrite hs.mem _ _)
  | transfer target _ _ hexec =>
    cases (hexec s).symm.trans h
    exact inv_setPc hs _
  | call pck hi =>
    subst hi
    obtain ⟨u, hu, rfl⟩ := execCall_next h
    exact inv_setPc (inv_push hs hu) pck
  | ret hi =>
    subst hi
    obtain ⟨v, u, hu, rfl⟩ := execRet_next h
    exact inv_setPc (inv_pop hs hu) v

end Sys2Proof.Machine

namespace Sys2Proof.Claims

open Sys2Proof.Machine

/-- Settles O9: a step is a reset step or runs an instruction, and each keeps soundness. -/
theorem stepKeepsStateSound : Obligations.StepKeepsStateSound := by
  intro s t hs h
  rcases step_next_cases h with ⟨-, rfl⟩ | ⟨-, ir, i, -, -, hi⟩
  · exact inv_resetStep hs
  · exact inv_exec hs hi

end Sys2Proof.Claims
end

section
/-!
PROOFS. An instruction reads its source before it writes its destination (R17, R155), and writes no other register (R16).
-/

namespace Sys2Proof.Machine

open Sys2Proof.Claims

/-- Adding an operand to itself is shifting it left, in result and flags. -/
theorem alu_add_self (ne : NotExt) (a b : Byte) : alu ne .add a a = alu ne .shl a b := by
  simp only [alu, f9, BitVec.shiftLeft_eq_mul_twoPow]
  congr 1
  bv_omega

/-- Subtracting an operand from itself gives 0, no borrow, and the zero flag. -/
theorem alu_sub_self (ne : NotExt) (a : Byte) : alu ne .sub a a = ⟨0, false, true⟩ := by
  simp [alu, f9, aluOut]

/-- The register file is written only at the destination. -/
theorem readReg_exec_of_not_destination {i : Instr} {s t : State} (h : exec i s = .next t) {q : RegNum}
    (hq : destination i ≠ some q) : readReg t q = readReg s q := by
  cases course i with
  | aluToReg f ra sel k rb hdest _ hexec =>
    cases (hexec s).symm.trans h
    have hne : q ≠ ra := fun e => hq (e ▸ hdest)
    simp [aluToReg, hne]
  | aluToFlags f ra sel k rb _ hexec =>
    cases (hexec s).symm.trans h
    rfl
  | load ra sel k rb hdest _ hexec =>
    cases (hexec s).symm.trans h
    have hne : q ≠ ra := fun e => hq (e ▸ hdest)
    simp [loadFrom, hne]
  | store ra sel k rb _ hexec =>
    cases (hexec s).symm.trans h
    rfl
  | transfer target _ _ hexec =>
    cases (hexec s).symm.trans h
    rfl
  | call pck hi =>
    subst hi
    obtain ⟨stk, sp, rfl⟩ := execCall_frame h
    rfl
  | ret hi =>
    subst hi
    obtain ⟨sp, a, rfl⟩ := execRet_frame h
    rfl

end Sys2Proof.Machine

namespace Sys2Proof.Claims

open Sys2Proof.Machine

/-- Settles O28: the two ALU forms by what the ALU answers for equal operands, the load by its one bus read at `x[R]`. -/
theorem sourceIsReadBeforeDestinationIsWritten : Obligations.SourceIsReadBeforeDestinationIsWritten := by
  intro s r
  refine ⟨?_, ?_, dataIn s (readReg s r), loadFrom r (readReg s r) s, rfl, rfl, ?_⟩
  · simp [exec, execAddRR, execShlR, aluToReg_eq, alu_add_self _ _ 0]
  · simp [exec, execSubRR, aluToReg_eq, alu_sub_self, wrote]
  · simp [loadFrom]

/-- Settles O41: the frame of the register file. -/
theorem onlyTheDestinationRegisterChanges : Obligations.OnlyTheDestinationRegisterChanges :=
  fun _ _ _ h _ hq => readReg_exec_of_not_destination h hq

end Sys2Proof.Claims
end

section
/-!
PROOFS. Who writes and who reads the flags (R21).
-/

namespace Sys2Proof.Machine

open Sys2Proof.Claims

/-- An outcome with its next state replaced; a stop stays the stop it is. -/
def mapNext (g : State → State) : Result → Result
  | .next t    => .next (g t)
  | .fault f   => .fault f
  | .refused r => .refused r

@[simp] theorem mapNext_next (g : State → State) (t : State) : mapNext g (.next t) = .next (g t) := rfl
@[simp] theorem mapNext_fault (g : State → State) (f : Fault) : mapNext g (.fault f) = .fault f := rfl

/-! The operations from a state with other flags: none of them reads a flag. -/

section
variable (s : State) (c z : Bool)

theorem operand2_writeFlags (sel : OperandSel) (k : Byte) (rb : RegNum) :
    operand2 sel k rb (writeFlags s c z) = operand2 sel k rb s := rfl

theorem aluToReg_writeFlags (f : AluFn) (ra : RegNum) (op2 : Byte) :
    aluToReg f ra op2 (writeFlags s c z) = aluToReg f ra op2 s := rfl

theorem aluToFlags_writeFlags (f : AluFn) (ra : RegNum) (op2 : Byte) :
    aluToFlags f ra op2 (writeFlags s c z) = aluToFlags f ra op2 s := rfl

theorem loadFrom_writeFlags (ra : RegNum) (a : Byte) :
    loadFrom ra a (writeFlags s c z) = writeFlags (loadFrom ra a s) c z := rfl

theorem storeTo_writeFlags (ra : RegNum) (a : Byte) :
    storeTo ra a (writeFlags s c z) = writeFlags (storeTo ra a s) c z := rfl

theorem setPc_writeFlags (a : Addr) : setPc (writeFlags s c z) a = writeFlags (setPc s a) c z := rfl

theorem push_writeFlags (v : Addr) :
    push v (writeFlags s c z) = (push v s).map (writeFlags · c z) := by
  have hdepth : stackDepth (writeFlags s c z) = stackDepth s := rfl
  simp only [push, writeFlags_params, writeFlags_sp, hdepth]
  split
  · split <;> rfl
  · rfl
  · split <;> rfl

theorem pop_writeFlags :
    pop (writeFlags s c z) = (pop s).map (Prod.map id (writeFlags · c z)) := by
  simp only [pop, writeFlags_params, writeFlags_sp]
  by_cases hempty : s.sp = 0
  · simp only [hempty, if_true]
    split <;> rfl
  · simp only [hempty, if_false]
    split <;> rfl

theorem execCall_writeFlags (pck : Addr) :
    execCall pck (writeFlags s c z) = mapNext (writeFlags · c z) (execCall pck s) := by
  simp only [execCall, writeFlags_pc, push_writeFlags]
  cases push (s.pc + 1) s <;> rfl

theorem execRet_writeFlags :
    execRet (writeFlags s c z) = mapNext (writeFlags · c z) (execRet s) := by
  simp only [execRet, pop_writeFlags]
  cases pop s <;> rfl

end

/-- An instruction that reads no flag does the same from a state with other flags, which stay unless it writes its own. -/
theorem exec_writeFlags {i : Instr} (hr : readsFlags i = false) (s : State) (c z : Bool) :
    exec i (writeFlags s c z) =
      mapNext (fun t => if writesFlags i then t else writeFlags t c z) (exec i s) := by
  cases course i with
  | aluToReg f ra sel k rb _ hwrites hexec =>
    simp [hexec, hwrites, operand2_writeFlags, aluToReg_writeFlags]
  | aluToFlags f ra sel k rb hwrites hexec =>
    simp [hexec, hwrites, operand2_writeFlags, aluToFlags_writeFlags]
  | load ra sel k rb _ hwrites hexec =>
    simp [hexec, hwrites, operand2_writeFlags, loadFrom_writeFlags]
  | store ra sel k rb hwrites hexec =>
    simp [hexec, hwrites, operand2_writeFlags, storeTo_writeFlags]
  | transfer target hwrites hreads hexec =>
    simp [hexec, hwrites, setPc_writeFlags, hreads hr s.pc c z s.carry s.zero]
  | call pck hi =>
    subst hi
    exact execCall_writeFlags s c z pck
  | ret hi =>
    subst hi
    exact execRet_writeFlags s c z

/-- An instruction that is no ALU instruction keeps both flags. -/
theorem flags_exec_of_not_writesFlags {i : Instr} {s t : State} (h : exec i s = .next t) (hw : writesFlags i = false) :
    t.carry = s.carry ∧ t.zero = s.zero := by
  cases course i with
  | aluToReg f ra sel k rb _ hwrites _ => simp [hw] at hwrites
  | aluToFlags f ra sel k rb hwrites _ => simp [hw] at hwrites
  | load ra sel k rb _ _ hexec =>
    cases (hexec s).symm.trans h
    exact ⟨rfl, rfl⟩
  | store ra sel k rb _ hexec =>
    cases (hexec s).symm.trans h
    exact ⟨rfl, rfl⟩
  | transfer target _ _ hexec =>
    cases (hexec s).symm.trans h
    exact ⟨rfl, rfl⟩
  | call pck hi =>
    subst hi
    obtain ⟨stk, sp, rfl⟩ := execCall_frame h
    exact ⟨rfl, rfl⟩
  | ret hi =>
    subst hi
    obtain ⟨sp, a, rfl⟩ := execRet_frame h
    exact ⟨rfl, rfl⟩

end Sys2Proof.Machine

namespace Sys2Proof.Claims

open Sys2Proof.Machine

/-- Settles O42: the frame of the flags, the independence of the instructions that read none, and the two jumps by the
value of the flag each reads. -/
theorem flagsAreWrittenAndReadOnlyByTheirInstructions : Obligations.FlagsAreWrittenAndReadOnlyByTheirInstructions := by
  intro i s c z
  refine ⟨fun t h hw => flags_exec_of_not_writesFlags h hw, fun hr => ⟨fun t h => ?_, fun f h => ?_⟩, fun pck => ⟨?_, ?_⟩⟩
  · rw [exec_writeFlags hr, h, mapNext_next]
  · rw [exec_writeFlags hr, h, mapNext_fault]
  · cases c <;> rfl
  · cases z <;> rfl

end Sys2Proof.Claims
end

section
/-!
PROOFS. Who writes and who reads the call stack, what nested calls leave on it (R23, R24), and the wrap of `pc` (R19).
-/

namespace Sys2Proof.Machine

open Sys2Proof.Claims

/-- An instruction other than CALL and RET completes, keeps the stack, and does the same whatever the stack holds. -/
theorem exec_keeps_stack {i : Instr} (hcall : ∀ pck, i ≠ .call pck) (hret : i ≠ .ret) (s : State) (stk : List Addr)
    (sp : Nat) : ∃ t, exec i s = .next t ∧ t.stk = s.stk ∧ t.sp = s.sp ∧
      exec i { s with stk := stk, sp := sp } = .next { t with stk := stk, sp := sp } := by
  cases course i with
  | aluToReg f ra sel k rb _ _ hexec => exact ⟨_, hexec s, rfl, rfl, hexec _⟩
  | aluToFlags f ra sel k rb _ hexec => exact ⟨_, hexec s, rfl, rfl, hexec _⟩
  | load ra sel k rb _ _ hexec => exact ⟨_, hexec s, rfl, rfl, hexec _⟩
  | store ra sel k rb _ hexec => exact ⟨_, hexec s, rfl, rfl, hexec _⟩
  | transfer target _ _ hexec => exact ⟨_, hexec s, rfl, rfl, hexec _⟩
  | call pck hi => exact absurd hi (hcall pck)
  | ret hi => exact absurd hi hret

/-- A push answers the same, but for the entries, whatever the entries were. -/
theorem push_of_entries {v : Addr} {s t : State} {stk : List Addr} (hlen : stk.length = stackDepth s)
    (h : push v s = .ok t) : ∃ stk', push v { s with stk := stk } = .ok { t with stk := stk' } := by
  have hdepth : stackDepth { s with stk := stk } = stackDepth s := hlen
  rcases push_cases h with ⟨sp, rfl, ⟨hp, rfl⟩ | ⟨hp, hroom, rfl⟩⟩ | ⟨hp, hfull, rfl⟩
  · exact ⟨stk.set s.sp v, hdepth ▸ push_of_wrap v hp⟩
  · exact ⟨stk.set s.sp v, push_of_room v hp (hdepth ▸ hroom)⟩
  · exact ⟨stk, push_of_saturated v hp (hdepth ▸ hfull)⟩

/-- `s` after a CALL to `pck` that stacks its return address on the next entry. -/
def called (s : State) (pck : Addr) : State :=
  { s with stk := s.stk.set s.sp (s.pc + 1), sp := s.sp + 1, pc := pck }

/-- Under `fault` and `saturate`, CALL on a stack that is not full leads to `called`. -/
theorem exec_call_of_room {s : State} (pck : Addr) (hp : s.params.stackPolicy ≠ .wrap)
    (hroom : s.sp < stackDepth s) : exec (.call pck) s = .next (called s pck) :=
  execCall_of_push (push_of_room _ hp hroom.ne)

@[simp] theorem called_sp (s : State) (pck : Addr) : (called s pck).sp = s.sp + 1 := rfl

@[simp] theorem stackDepth_called (s : State) (pck : Addr) : stackDepth (called s pck) = stackDepth s :=
  List.length_set

theorem stkAt_called {s : State} (pck : Addr) (hroom : s.sp < stackDepth s) (j : Nat) :
    stkAt (called s pck) j = if j = s.sp then s.pc + 1 else stkAt s j :=
  stkAt_of_set rfl hroom j

/-- Nested calls that fit: each stacks its return address above the entries in use, and its target is where the next one
stands. -/
theorem runCalls_stacks (targets : List Addr) (s : State) (hp : s.params.stackPolicy ≠ .wrap)
    (hfit : s.sp + targets.length ≤ stackDepth s) :
    ∃ t, runCalls targets s = .next t ∧ t.sp = s.sp + targets.length ∧
      (∀ j, j < s.sp → stkAt t j = stkAt s j) ∧
      ∀ j pc, j < targets.length → (s.pc :: targets)[j]? = some pc → stkAt t (s.sp + j) = pc + 1 := by
  induction targets generalizing s with
  | nil => exact ⟨s, rfl, rfl, fun _ _ => rfl, fun j _ hj => absurd hj (Nat.not_lt_zero j)⟩
  | cons pck rest ih =>
    rw [List.length_cons] at hfit ⊢
    have hroom : s.sp < stackDepth s := by omega
    obtain ⟨t, hrun, hsp, hbelow, habove⟩ := ih (called s pck) hp (by simp only [called_sp, stackDepth_called]; omega)
    rw [called_sp] at hsp hbelow habove
    refine ⟨t, ?_, by omega, fun j hj => ?_, fun j pc hj hpc => ?_⟩
    · simp only [runCalls, exec_call_of_room pck hp hroom, hrun]
    · rw [hbelow j (by omega), stkAt_called pck hroom, if_neg hj.ne]
    · cases j with
      | zero =>
        cases hpc
        rw [Nat.add_zero, hbelow s.sp (by omega), stkAt_called pck hroom, if_pos rfl]
      | succ j =>
        rw [← Nat.add_assoc, ← Nat.add_right_comm]
        exact habove j pc (by omega) hpc

theorem exec_nop (s : State) : exec .nop s = .next { s with pc := s.pc + 1 } := rfl

/-- The entry a CALL below the depth writes is the address after it (R113). -/
theorem stkAt_execCall {s t : State} {pck : Addr} (hroom : s.sp < stackDepth s) (h : execCall pck s = .next t) :
    stkAt t s.sp = s.pc + 1 := by
  obtain ⟨u, hu, rfl⟩ := execCall_next h
  rcases push_cases hu with ⟨sp, rfl, -⟩ | ⟨-, hfull, -⟩
  · rw [stkAt_of_set rfl hroom, if_pos rfl]
  · exact absurd hfull hroom.ne

end Sys2Proof.Machine

namespace Sys2Proof.Claims

open Sys2Proof.Machine

/-- Settles O43: the courses of the 23 others, RET by its frame, CALL by its push. -/
theorem onlyCallAndRetTouchTheStack : Obligations.OnlyCallAndRetTouchTheStack := by
  refine ⟨fun i s stk sp hcall hret => exec_keeps_stack hcall hret s stk sp, fun s t h => ?_, ?_⟩
  · obtain ⟨sp, a, rfl⟩ := execRet_frame h
    rfl
  · intro s t stk pck hlen h
    obtain ⟨u, hu, rfl⟩ := execCall_next h
    obtain ⟨stk', hpush⟩ := push_of_entries hlen hu
    exact ⟨_, execCall_of_push hpush, rfl⟩

/-- Settles O39, by induction on the calls. -/
theorem nestedCallsStackTheirReturnAddresses : Obligations.NestedCallsStackTheirReturnAddresses :=
  fun s targets hp hfit => runCalls_stacks targets s hp hfit

/-- Settles O40: NOP and the push of CALL both take `pc + 1`, which is 0 in 11 bits at 2047. -/
theorem programCounterWrapsAtTheTop : Obligations.ProgramCounterWrapsAtTheTop := by
  intro s hpc
  have hwrap : s.pc + 1 = 0 := by rw [hpc]; rfl
  refine ⟨?_, fun pck t hroom h => ?_⟩
  · rw [exec_nop, hwrap]
  · rw [stkAt_execCall hroom h, hwrap]

end Sys2Proof.Claims
end

section
/-!
PROOFS. What no step changes: the program, and by the model's choice the parameters, the stack's depth and the reset level
(R5, R30, R39).
-/

namespace Sys2Proof.Machine

/-- `t` has the program, the parameters, the stack's depth and the reset level of `s`. -/
structure SameSetup (s t : State) : Prop where
  program : t.program = s.program
  params  : t.params = s.params
  depth   : stackDepth t = stackDepth s
  resetIn : t.resetIn = s.resetIn

/-- A push writes one entry in place, so the depth stays. -/
theorem sameSetup_push {v : Addr} {s t : State} (h : push v s = .ok t) : SameSetup s t := by
  rcases push_cases h with ⟨sp, rfl, -⟩ | ⟨-, -, rfl⟩
  · exact ⟨rfl, rfl, List.length_set, rfl⟩
  · exact ⟨rfl, rfl, rfl, rfl⟩

/-- No instruction touches the setup; the entry that CALL writes is the one update of the stack's list. -/
theorem sameSetup_exec {i : Instr} {s t : State} (h : exec i s = .next t) : SameSetup s t := by
  cases course i with
  | aluToReg f ra sel k rb _ _ hexec =>
    cases (hexec s).symm.trans h
    exact ⟨rfl, rfl, rfl, rfl⟩
  | aluToFlags f ra sel k rb _ hexec =>
    cases (hexec s).symm.trans h
    exact ⟨rfl, rfl, rfl, rfl⟩
  | load ra sel k rb _ _ hexec =>
    cases (hexec s).symm.trans h
    exact ⟨rfl, rfl, rfl, rfl⟩
  | store ra sel k rb _ hexec =>
    cases (hexec s).symm.trans h
    exact ⟨rfl, rfl, rfl, rfl⟩
  | transfer target _ _ hexec =>
    cases (hexec s).symm.trans h
    exact ⟨rfl, rfl, rfl, rfl⟩
  | call pck hi =>
    subst hi
    obtain ⟨u, hu, rfl⟩ := execCall_next h
    have hpush := sameSetup_push hu
    exact ⟨hpush.program, hpush.params, hpush.depth, hpush.resetIn⟩
  | ret hi =>
    subst hi
    obtain ⟨sp, a, rfl⟩ := execRet_frame h
    exact ⟨rfl, rfl, rfl, rfl⟩

theorem sameSetup_step {s t : State} (h : step s = .next t) : SameSetup s t := by
  rcases step_next_cases h with ⟨-, rfl⟩ | ⟨-, ir, i, -, -, hi⟩
  · exact ⟨rfl, rfl, rfl, rfl⟩
  · exact sameSetup_exec hi

end Sys2Proof.Machine

namespace Sys2Proof.Claims

open Sys2Proof.Machine

/-- Settles O10: the four parts of the setup that every step keeps. -/
theorem noStepChangesProgramOrParameters : Obligations.NoStepChangesProgramOrParameters := by
  intro s t h
  obtain ⟨hprogram, hparams, hdepth, hresetIn⟩ := sameSetup_step h
  exact ⟨hprogram, hparams, hdepth, hresetIn⟩

end Sys2Proof.Claims
end

section
/-!
PROOFS. The data bus: which transaction an instruction performs (R31 to R33), and that a load answers the byte of the last
store at its address (R38).
-/

namespace Sys2Proof.Machine

open Sys2Proof.Claims

/-! ### Loads, stores and the others -/

/-- An instruction that has a load address is a load from it into its destination. -/
theorem exec_of_loadAddr {s : State} {i : Instr} {a : Byte} (h : loadAddr s i = some a) :
    ∃ ra, destination i = some ra ∧ exec i s = .next (loadFrom ra a s) := by
  cases i with
  | loadK ra k => cases h; exact ⟨ra, rfl, rfl⟩
  | loadR ra rb => cases h; exact ⟨ra, rfl, rfl⟩
  | _ => cases h

/-- An instruction that has a byte to store is a store of a register's byte at its address. -/
theorem exec_of_storeWrite {s : State} {i : Instr} {a v : Byte} (h : storeWrite s i = some (a, v)) :
    ∃ ra, v = readReg s ra ∧ exec i s = .next (storeTo ra a s) := by
  cases i with
  | storeK ra k => cases h; exact ⟨ra, rfl, rfl⟩
  | storeR ra rb => cases h; exact ⟨ra, rfl, rfl⟩
  | _ => cases h

/-- Whether an instruction is a store does not depend on the state. -/
theorem storeWrite_eq_none_congr {s : State} {i : Instr} (h : storeWrite s i = none) (t : State) :
    storeWrite t i = none := by
  cases i with
  | storeK ra k => cases h
  | storeR ra rb => cases h
  | _ => rfl

/-- An instruction that neither loads nor stores leaves the bus and the data memory alone (R33). -/
theorem exec_keeps_bus {i : Instr} {s t : State} (h : exec i s = .next t) (hload : loadAddr s i = none)
    (hstore : storeWrite s i = none) : t.busLog = s.busLog ∧ t.mem = s.mem := by
  cases i with
  | loadK ra k => cases hload
  | loadR ra rb => cases hload
  | storeK ra k => cases hstore
  | storeR ra rb => cases hstore
  | jc pck =>
    cases h
    rw [jumpIf_eq]
    exact ⟨rfl, rfl⟩
  | jz pck =>
    cases h
    rw [jumpIf_eq]
    exact ⟨rfl, rfl⟩
  | call pck =>
    obtain ⟨stk, sp, rfl⟩ := execCall_frame h
    exact ⟨rfl, rfl⟩
  | ret =>
    obtain ⟨sp, a, rfl⟩ := execRet_frame h
    exact ⟨rfl, rfl⟩
  | _ => cases h; exact ⟨rfl, rfl⟩

/-! ### What a step does to the data memory -/

/-- Only a store changes the data memory. -/
theorem mem_exec_of_not_store {i : Instr} {s t : State} (h : exec i s = .next t) (hstore : storeWrite s i = none) :
    t.mem = s.mem := by
  cases hload : loadAddr s i with
  | none => exact (exec_keeps_bus h hload hstore).2
  | some a =>
    obtain ⟨ra, -, hexec⟩ := exec_of_loadAddr hload
    cases hexec.symm.trans h
    rfl

/-- A store to plain memory leaves its byte at its address (R38). -/
theorem memRead_exec_store {i : Instr} {s t : State} {a v : Byte} (h : exec i s = .next t)
    (hstore : storeWrite s i = some (a, v)) (hplain : isIO s a = false) : memRead t.mem a.toNat = some v := by
  obtain ⟨ra, rfl, hexec⟩ := exec_of_storeWrite hstore
  cases hexec.symm.trans h
  simp [storeTo, memRead_memWrite, alu_passA_result, hplain]

/-- An instruction that does not store at `a` leaves the byte at `a`. -/
theorem memRead_exec_of_not_stored {i : Instr} {s t : State} {a : Byte} (h : exec i s = .next t)
    (hnot : ∀ v, storeWrite s i ≠ some (a, v)) : memRead t.mem a.toNat = memRead s.mem a.toNat := by
  cases hstore : storeWrite s i with
  | none => rw [mem_exec_of_not_store h hstore]
  | some w =>
    obtain ⟨b, v⟩ := w
    have hne : a ≠ b := fun e => hnot v (e ▸ hstore)
    obtain ⟨ra, -, hexec⟩ := exec_of_storeWrite hstore
    cases hexec.symm.trans h
    rw [storeTo, advance_mem, memRead_busWrite, if_neg (fun e => hne e.1)]

/-- A store keeps every register and both flags (R32). -/
theorem exec_store_keeps {i : Instr} {s t : State} (h : exec i s = .next t) (hstore : storeWrite s i ≠ none) :
    t.regs = s.regs ∧ t.carry = s.carry ∧ t.zero = s.zero := by
  obtain ⟨⟨a, v⟩, hstore⟩ := Option.ne_none_iff_exists'.mp hstore
  obtain ⟨ra, -, hexec⟩ := exec_of_storeWrite hstore
  cases hexec.symm.trans h
  exact ⟨rfl, rfl, rfl⟩

/-! ### Runs that do not store at an address -/

/-- What every instruction of such a run keeps, the run keeps. -/
theorem runsWithoutStoringAt_keeps {α : Type} (f : State → α) {a : Byte} {between : List Instr} {s t : State}
    (hrun : runsWithoutStoringAt a between s t)
    (hstep : ∀ i ∈ between, ∀ p q, (∀ v, storeWrite p i ≠ some (a, v)) → exec i p = .next q → f q = f p) :
    f t = f s := by
  induction between generalizing s with
  | nil => exact congrArg f hrun
  | cons i rest ih =>
    obtain ⟨hnot, u, hexec, hrest⟩ := hrun
    calc f t = f u := ih hrest fun j hj => hstep j (List.mem_cons_of_mem i hj)
      _ = f s := hstep i List.mem_cons_self s u hnot hexec

/-- A run that does not store at `a` leaves the byte at `a`, whatever it does elsewhere. -/
theorem memRead_runsWithoutStoringAt {a : Byte} {between : List Instr} {s t : State}
    (hrun : runsWithoutStoringAt a between s t) : memRead t.mem a.toNat = memRead s.mem a.toNat :=
  runsWithoutStoringAt_keeps (fun s => memRead s.mem a.toNat) hrun
    fun _ _ _ _ hnot hexec => memRead_exec_of_not_stored hexec hnot

/-- No such run gives an address to a device or takes it from one. -/
theorem isIO_runsWithoutStoringAt {a : Byte} {between : List Instr} {s t : State}
    (hrun : runsWithoutStoringAt a between s t) (b : Byte) : isIO t b = isIO s b :=
  runsWithoutStoringAt_keeps (isIO · b) hrun
    fun _ _ _ _ _ hexec => congrArg (·.ioAddrs.contains b) (sameSetup_exec hexec).params

/-- A run of stores keeps every register and both flags. -/
theorem runsWithoutStoringAt_stores_keep {a : Byte} {between : List Instr} {s t p : State}
    (hrun : runsWithoutStoringAt a between s t) (hstores : ∀ i ∈ between, storeWrite p i ≠ none) :
    t.regs = s.regs ∧ t.carry = s.carry ∧ t.zero = s.zero := by
  have hkeep := runsWithoutStoringAt_keeps (fun s => (s.regs, s.carry, s.zero)) hrun fun i hi q r _ hexec => by
    obtain ⟨hregs, hcarry, hzero⟩ :=
      exec_store_keeps hexec fun hnone => hstores i hi (storeWrite_eq_none_congr hnone p)
    rw [hregs, hcarry, hzero]
  simpa using hkeep

/-! ### A load of a byte that was written -/

/-- A load from plain memory puts the byte last written into its register, and keeps the other registers and the flags
(R31, R38). -/
theorem loadFrom_of_written {s : State} {a v : Byte} (rd : RegNum) (hplain : isIO s a = false)
    (hmem : memRead s.mem a.toNat = some v) :
    readReg (loadFrom rd a s) rd = v ∧ (∀ rc, rc ≠ rd → readReg (loadFrom rd a s) rc = readReg s rc) ∧
      (loadFrom rd a s).carry = s.carry ∧ (loadFrom rd a s).zero = s.zero := by
  refine ⟨?_, fun rc hrc => ?_, rfl, rfl⟩
  · simp [loadFrom, dataIn_of_written hplain hmem]
  · simp [loadFrom, hrc]

end Sys2Proof.Machine

namespace Sys2Proof.Claims

open Sys2Proof.Machine

/-- Settles O31: the store leaves its byte at `a`, the run between keeps it there, and the load reads it back. -/
theorem loadReturnsTheLastStore : Obligations.LoadReturnsTheLastStore := by
  intro s t u store load between a v rd hplain hstore hfirst hrun haddr hdest
  have hmem : memRead u.mem a.toNat = some v :=
    (memRead_runsWithoutStoringAt hrun).trans (memRead_exec_store hfirst hstore hplain)
  have hplain' : isIO u a = false := by
    rw [isIO_runsWithoutStoringAt hrun, isIO, (sameSetup_exec hfirst).params]
    exact hplain
  obtain ⟨ra, hra, hload⟩ := exec_of_loadAddr haddr
  obtain rfl : ra = rd := Option.some.inj (hra.symm.trans hdest)
  obtain ⟨hread, hothers, hcarry, hzero⟩ := loadFrom_of_written ra hplain' hmem
  refine ⟨_, hload, hread, hothers, hcarry, hzero, fun hstores => ?_⟩
  obtain ⟨hregs, hc, hz⟩ := runsWithoutStoringAt_stores_keep hrun hstores
  obtain ⟨hregs', hc', hz'⟩ := exec_store_keeps hfirst (by simp [hstore])
  exact ⟨hregs.trans hregs', hc.trans hc', hz.trans hz'⟩

/-- Settles O32: a load and a store by the one transaction each makes, every other instruction by its frame. -/
theorem busTransactionsOfAStep : Obligations.BusTransactionsOfAStep := by
  intro i s t h
  refine ⟨fun a haddr => ?_, fun a v hstore => ?_, exec_keeps_bus h⟩
  · obtain ⟨ra, -, hexec⟩ := exec_of_loadAddr haddr
    cases hexec.symm.trans h
    exact ⟨dataIn s a, rfl, rfl⟩
  · obtain ⟨ra, rfl, hexec⟩ := exec_of_storeWrite hstore
    cases hexec.symm.trans h
    rw [storeTo_eq]

end Sys2Proof.Claims
end

section
/-!
PROOFS. Encoder and decoder are inverse to each other up to the bits a format does not use (R42, R47, R49).
-/

namespace Sys2Proof

open Sys2Proof.Claims

/-- The decoder's answer for an opcode that the map assigns. -/
theorem decode_of_opOf {m : OpcodeMap} {ir : IWord} {o : Op} (h : opOf m (opcodeOf ir) = some o) :
    decode m ir = .ok (instrOf o ir) := by
  simp [decode, h]

/-- The decoder's answer for an opcode that the map does not assign (R48). -/
theorem decode_of_undefined {m : OpcodeMap} {ir : IWord} (h : opOf m (opcodeOf ir) = none) :
    decode m ir = .error (.undefinedOpcode (opcodeOf ir)) := by
  simp [decode, h]

/-- Reading a word as a row of the table gives an instruction of that row. -/
@[simp] theorem op_instrOf (o : Op) (ir : IWord) : (instrOf o ir).op = o := by
  cases o <;> rfl

/-! ### From an instruction to its word and back -/

/-- The encoder writes the opcode of the instruction's row in every format (R47). -/
theorem opcodeOf_encode (m : OpcodeMap) (i : Instr) : opcodeOf (encode m i) = m.code i.op := by
  cases i <;> simp [encode, Instr.op]

/-- The fields that the encoder writes are read back, in every format (R42). -/
theorem instrOf_encode (m : OpcodeMap) (i : Instr) : instrOf i.op (encode m i) = i := by
  cases i <;> simp [encode, instrOf, Instr.op]

/-- The decoder undoes the encoder under every injective map: the opcode names the row, the row's fields the operands. -/
theorem decode_encode {m : OpcodeMap} (hm : m.wf = true) (i : Instr) : decode m (encode m i) = .ok i := by
  have hop : opOf m (opcodeOf (encode m i)) = some i.op := by rw [opcodeOf_encode, opOf_code hm]
  rw [decode_of_opOf hop, instrOf_encode]

/-- `decode_encode` for a row of the opcode table, read under the default map. -/
theorem decodeTableWord_encode (i : Instr) : decodeTableWord 16 (encode defaultOpcodeMap i).toNat = some i := by
  have hmod : (encode defaultOpcodeMap i).toNat % 2 ^ 16 = (encode defaultOpcodeMap i).toNat :=
    Nat.mod_eq_of_lt (encode defaultOpcodeMap i).isLt
  rw [decodeTableWord, hmod, BitVec.ofNat_toNat, BitVec.setWidth_eq, decode_encode defaultOpcodeMap_wf]

/-! ### From a word to its instruction and back: each layout, filled with a word's own fields, is the word with its unused
bits 0 (R42) -/

/-- A word that has the bits of `ir` from bit `n` up and no others is `ir` under the mask of those bits. -/
theorem eq_and_mask {w ir mask : IWord} (n : Nat) (hmask : ∀ i < 16, mask.getLsbD i = decide (n ≤ i))
    (hw : ∀ i < 16, w.getLsbD i = (decide (n ≤ i) && ir.getLsbD i)) : w = ir &&& mask := by
  apply BitVec.eq_of_getLsbD_eq
  intro i hi
  rw [hw i hi, BitVec.getLsbD_and, hmask i hi, Bool.and_comm]

section
variable (ir : IWord)

theorem wordRK_fields : wordRK (opcodeOf ir) (raOf ir) (kOf ir) = ir &&& 0xFFFF :=
  eq_and_mask 0 (by decide) fun i hi => by grind [wordRK, wordOf, opcodeOf, raOf, kOf]

theorem wordRR_fields : wordRR (opcodeOf ir) (raOf ir) (rbOf ir) = ir &&& 0xFFE0 :=
  eq_and_mask 5 (by decide) fun i hi => by grind [wordRR, wordOf, opcodeOf, raOf, rbOf]

theorem wordR_fields : wordR (opcodeOf ir) (raOf ir) = ir &&& 0xFF00 :=
  eq_and_mask 8 (by decide) fun i hi => by grind [wordR, wordOf, opcodeOf, raOf]

theorem wordA_fields : wordA (opcodeOf ir) (pckOf ir) = ir &&& 0xFFFF :=
  eq_and_mask 0 (by decide) fun i hi => by grind [wordA, wordOf, opcodeOf, pckOf]

theorem wordN_fields : wordN (opcodeOf ir) = ir &&& 0xF800 :=
  eq_and_mask 11 (by decide) fun i hi => by grind [wordN, wordOf, opcodeOf]

end

/-- Encoding what was read from a word gives the word back with its unused bits 0. -/
theorem encode_instrOf {m : OpcodeMap} {o : Op} {ir : IWord} (h : m.code o = opcodeOf ir) :
    encode m (instrOf o ir) = ir &&& usedBits o := by
  cases o <;> simp only [instrOf, encode, usedBits, h, wordRK_fields, wordRR_fields, wordR_fields,
    wordA_fields, wordN_fields]

/-- Every format uses the five bits of the opcode. -/
theorem opcodeOf_usedBits (o : Op) : opcodeOf (usedBits o) = BitVec.allOnes 5 := by
  cases o <;> rfl

theorem opcodeOf_and_usedBits (ir : IWord) (o : Op) : opcodeOf (ir &&& usedBits o) = opcodeOf ir := by
  have h := opcodeOf_usedBits o
  simp only [opcodeOf] at h ⊢
  rw [BitVec.extractLsb'_and, h, BitVec.and_allOnes]

/-- Words that agree on the used bits are read as the same instruction: its operands are in the word that encodes it. -/
theorem instrOf_congr {m : OpcodeMap} {o : Op} {ir ir' : IWord} (ho : m.code o = opcodeOf ir)
    (ho' : m.code o = opcodeOf ir') (h : ir' &&& usedBits o = ir &&& usedBits o) : instrOf o ir' = instrOf o ir := by
  have hword : encode m (instrOf o ir') = encode m (instrOf o ir) := by
    rw [encode_instrOf ho', encode_instrOf ho, h]
  have hback : ∀ w, instrOf o (encode m (instrOf o w)) = instrOf o w := fun w => by
    simpa using instrOf_encode m (instrOf o w)
  rw [← hback ir', hword, hback ir]

end Sys2Proof

namespace Sys2Proof.Claims

/-- Settles O11, from the opcode and the fields that the encoder writes. -/
theorem decodeOfEncodeIsTheInstruction : Obligations.DecodeOfEncodeIsTheInstruction :=
  fun _ i hm _ => decode_encode hm i

/-- Settles O12: a word with the same used bits has the same opcode, hence the same row, and the same operands. -/
theorem unusedBitsAreIgnored : Obligations.UnusedBitsAreIgnored := by
  intro m ir i h
  obtain ⟨o, ho, rfl⟩ := decode_ok h
  have hcode : m.code o = opcodeOf ir := code_of_opOf ho
  rw [op_instrOf]
  refine ⟨encode_instrOf hcode, fun ir' hbits => ?_⟩
  have hop : opcodeOf ir' = opcodeOf ir := by rw [← opcodeOf_and_usedBits ir' o, hbits, opcodeOf_and_usedBits]
  rw [decode_of_opOf (hop ▸ ho), instrOf_congr hcode (hop ▸ hcode) hbits]

/-- The 25 words of O13 are the encodings of its 25 instructions. -/
theorem zeroFieldWords_eq :
    [0x0000, 0x0800, 0x1000, 0x1800, 0x2000, 0x2800, 0x3000, 0x3800, 0x4000, 0x4800, 0x5000, 0x5800, 0x6000, 0x6800,
      0x7000, 0x7800, 0x8000, 0x8800, 0x9000, 0x9800, 0xA000, 0xA800, 0xB000, 0xB800, 0xC000] =
    (Op.all.map fun o => instrOf o 0).map fun i => (encode defaultOpcodeMap i).toNat := by decide

/-- Settles O13: each word is the one that the encoder writes for its instruction; no row has the opcode 25 of `0xC800`. -/
theorem exampleWordsDecode : Obligations.ExampleWordsDecode := by
  refine ⟨decodeTableWord_encode (.addRR 2 3), decodeTableWord_encode (.cmpRK 2 0x30), decodeTableWord_encode (.shlR 2),
    decodeTableWord_encode (.storeR 4 6), decodeTableWord_encode (.jz 0x7FF), decodeTableWord_encode .ret, by decide, ?_⟩
  rw [zeroFieldWords_eq, List.map_map]
  exact List.map_congr_left fun i _ => decodeTableWord_encode i

end Sys2Proof.Claims
end

section
/-!
PROOFS. What a step does with the word it fetched: an opcode that the map does not assign stops it (R48, R132), every other
word runs its row's instruction (R63).
-/

namespace Sys2Proof.Machine

section
variable {s : State} {ir : IWord} {o : Op}

theorem decodeFetched_of_opOf (h : opOf s.params.opcodeMap (opcodeOf ir) = some o) :
    decodeFetched s ir = .ok (instrOf o ir) :=
  decodeFetched_ok.mpr (decode_of_opOf h)

theorem decodeFetched_of_undefined (h : opOf s.params.opcodeMap (opcodeOf ir) = none) :
    decodeFetched s ir = .error (.undefinedOpcodeStall s.pc ir) := by
  simp [decodeFetched, decode_of_undefined h]

theorem step_of_fetch_error {f : Fault} (hreset : s.resetIn = false) (hfetch : fetch s = .error f) :
    step s = .fault f := by
  simp [step, hreset, hfetch]

/-- The step on a word whose opcode the map assigns (R63). -/
theorem step_of_opOf (hreset : s.resetIn = false) (hfetch : fetch s = .ok ir)
    (h : opOf s.params.opcodeMap (opcodeOf ir) = some o) : step s = exec (instrOf o ir) s := by
  simp [step, hreset, hfetch, decodeFetched_of_opOf h]

/-- The step on a word whose opcode the map does not assign (R132). -/
theorem step_of_undefined (hreset : s.resetIn = false) (hfetch : fetch s = .ok ir)
    (h : opOf s.params.opcodeMap (opcodeOf ir) = none) : step s = .fault (.undefinedOpcodeStall s.pc ir) := by
  simp [step, hreset, hfetch, decodeFetched_of_undefined h]

end

/-- The rows of the table are numbered without a gap. -/
theorem exists_index (n : Fin 25) : ∃ o : Op, o.index = n :=
  ⟨Op.all[n], by revert n; decide⟩

/-- The default map assigns the opcodes 0 to 24 and no other (R47, R48). -/
theorem defaultOpcodeMap_assigns (c : Opcode) : (∃ o, defaultOpcodeMap.code o = c) ↔ c.toNat < 25 := by
  constructor
  · rintro ⟨o, rfl⟩
    rw [defaultOpcodeMap_code, BitVec.toNat_ofNat]
    omega
  · intro h
    obtain ⟨o, ho⟩ := exists_index ⟨c.toNat, h⟩
    exact ⟨o, by rw [defaultOpcodeMap_code, ho, BitVec.ofNat_toNat, BitVec.setWidth_eq]⟩

end Sys2Proof.Machine

namespace Sys2Proof.Claims

open Sys2Proof.Machine

/-- Settles O7: the step on a fetched word is settled by whether the map assigns its opcode to a row. -/
theorem undefinedOpcodeStalls : Obligations.UndefinedOpcodeStalls := by
  refine ⟨fun s ir hreset hword => ⟨fun hnone => ?_, fun ⟨o, ho⟩ => ?_⟩, fun c => ?_⟩
  · exact step_of_undefined hreset (fetch_ok.mpr hword) ((opOf_eq_none ..).mpr hnone)
  · obtain ⟨p, hp⟩ : ∃ p, opOf s.params.opcodeMap (opcodeOf ir) = some p :=
      Option.ne_none_iff_exists'.mp fun h => (opOf_eq_none ..).mp h o ho
    exact ⟨instrOf p ir, step_of_opOf hreset (fetch_ok.mpr hword) hp⟩
  · rw [← not_exists, defaultOpcodeMap_assigns, not_lt]

end Sys2Proof.Claims
end

section
/-!
PROOFS. The decoder table of R45: which of its signals exclude each other (R46), and that the datapath under it takes the
step of the instructions' own meanings (R63).
-/

namespace Sys2Proof.Machine

open Sys2Proof.Claims

/-! ### The rows of the decoder table -/

section
variable (ir : IWord) (c z : Bool)

/-- Every row, the undefined one too, drives the write port from the field Ra (R43). -/
theorem addrA_decoderTable (o : Option Op) : (decoderTable o ir c z).addrA = raOf ir := by
  cases o with
  | none => rfl
  | some o => cases o <;> rfl

/-- Every instruction asserts exactly one pc action; JC and JZ by their flag. -/
theorem asserted_pcActions (o : Op) :
    asserted [(decoderTable (some o) ir c z).jmp, (decoderTable (some o) ir c z).call,
      (decoderTable (some o) ir c z).ret, (decoderTable (some o) ir c z).pcIncrement] = 1 := by
  cases o with
  | jc => cases c <;> rfl
  | jz => cases z <;> rfl
  | _ => rfl

/-- No row strobes both a read and a write. -/
theorem memoryRead_and_memoryWrite (o : Option Op) :
    ((decoderTable o ir c z).memoryRead && (decoderTable o ir c z).memoryWrite) = false := by
  cases o with
  | none => rfl
  | some o => cases o <;> rfl

end

/-- Two signals that are not both asserted. -/
theorem asserted_pair_le_one {a b : Bool} (h : (a && b) = false) : asserted [a, b] ≤ 1 := by
  cases a <;> cases b <;> simp_all [asserted]

/-! ### The datapath under a row -/

/-- The datapath under a row is the row's instruction, whatever the signals that the row leaves unspecified: they select
an operand that the ALU function ignores, or a result that no enable commits. JC and JZ turn on their flag. -/
theorem datapath_decoderTable (d : DontCare) (o : Op) (ir : IWord) (s : State) :
    datapath d (decoderTable (some o) ir s.carry s.zero) s = exec (instrOf o ir) s := by
  cases o with
  | jc => cases hc : s.carry <;> simp [decoderTable, row, datapath, nextPc, instrOf, exec, execJc, jumpIf, hc]
  | jz => cases hz : s.zero <;> simp [decoderTable, row, datapath, nextPc, instrOf, exec, execJz, jumpIf, hz]
  | _ => rfl

/-- The core of R63 and the step agree: both fetch the same word and stop for the same reasons, and where neither stops,
the datapath is the instruction. -/
theorem coreCycle_eq_step (d : DontCare) {s : State} (hreset : s.resetIn = false) : coreCycle d s = step s := by
  cases hfetch : fetch s with
  | error f => simp [coreCycle, hfetch, step_of_fetch_error hreset hfetch]
  | ok ir =>
    cases hop : opOf s.params.opcodeMap (opcodeOf ir) with
    | none => simp [coreCycle, hfetch, hop, step_of_undefined hreset hfetch hop]
    | some o => simp [coreCycle, hfetch, hop, controlWord, datapath_decoderTable, step_of_opOf hreset hfetch hop]

end Sys2Proof.Machine

namespace Sys2Proof.Claims

open Sys2Proof.Machine

/-- Settles O14, from the rows of the decoder table; the row of an undefined opcode asserts no pc action. -/
theorem controlSignalsAreMutuallyExclusive : Obligations.ControlSignalsAreMutuallyExclusive := by
  intro m ir c z
  refine ⟨?_, asserted_pair_le_one (memoryRead_and_memoryWrite ..), fun _ => addrA_decoderTable ..⟩
  rw [controlWord]
  cases opOf m (opcodeOf ir) with
  | none => exact Nat.zero_le 1
  | some o => exact (asserted_pcActions ir c z o).le

/-- Settles O15, from the agreement of the datapath with `exec` row by row. -/
theorem datapathAgreesWithTheInstructions : Obligations.DatapathAgreesWithTheInstructions :=
  fun d _ hreset => coreCycle_eq_step d hreset

end Sys2Proof.Claims
end

section
/-!
PROOFS. The assembler (R50, R51): what it accepts is the text of an instruction, and a program's image has the word of each
line at the line's address.
-/

namespace Sys2Proof.Machine

open Sys2Proof.Claims

/-! ### Numbers and fields: a field is read from exactly the number it holds -/

@[simp] theorem regField_toNat (r : RegNum) : regField r.toNat = some r := by
  simp [regField, r.isLt]

@[simp] theorem kField_toNat (k : Byte) : kField k.toNat = some k := by
  simp [kField, k.isLt]

@[simp] theorem pckField_toNat (pck : Addr) : pckField pck.toNat = some pck := by
  simp [pckField, pck.isLt]

/-- A number that a field of width `w` accepts is the number the field holds: it was in range, so nothing is cut off. -/
theorem eq_toNat_of_field {w n : Nat} {v : BitVec w}
    (h : (if n < 2 ^ w then some (BitVec.ofNat w n) else none) = some v) : n = v.toNat := by
  obtain ⟨hlt, hv⟩ := Option.ite_none_right_eq_some.mp h
  rw [← Option.some.inj hv, BitVec.toNat_ofNat, Nat.mod_eq_of_lt hlt]

theorem eq_toNat_of_regField {n : Nat} {r : RegNum} (h : regField n = some r) : n = r.toNat := eq_toNat_of_field h

theorem eq_toNat_of_kField {n : Nat} {k : Byte} (h : kField n = some k) : n = k.toNat := eq_toNat_of_field h

theorem eq_toNat_of_pckField {n : Nat} {pck : Addr} (h : pckField n = some pck) : n = pck.toNat := eq_toNat_of_field h

/-! ### Operands -/

@[simp] theorem withRK_toNat (f : RegNum → Byte → Instr) (ra : RegNum) (k : Byte) :
    withRK f ra.toNat k.toNat = some (f ra k) := by
  simp [withRK]

@[simp] theorem withRR_toNat (f : RegNum → RegNum → Instr) (ra rb : RegNum) :
    withRR f ra.toNat rb.toNat = some (f ra rb) := by
  simp [withRR]

theorem withRK_eq_some {f : RegNum → Byte → Instr} {n k : Nat} {i : Instr} (h : withRK f n k = some i) :
    ∃ ra kk, n = ra.toNat ∧ k = kk.toNat ∧ i = f ra kk := by
  simp only [withRK, Option.bind_eq_some_iff, Option.map_eq_some_iff] at h
  obtain ⟨ra, hra, kk, hk, rfl⟩ := h
  exact ⟨ra, kk, eq_toNat_of_regField hra, eq_toNat_of_kField hk, rfl⟩

theorem withRR_eq_some {f : RegNum → RegNum → Instr} {n m : Nat} {i : Instr} (h : withRR f n m = some i) :
    ∃ ra rb, n = ra.toNat ∧ m = rb.toNat ∧ i = f ra rb := by
  simp only [withRR, Option.bind_eq_some_iff, Option.map_eq_some_iff] at h
  obtain ⟨ra, hra, rb, hrb, rfl⟩ := h
  exact ⟨ra, rb, eq_toNat_of_regField hra, eq_toNat_of_regField hrb, rfl⟩

theorem map_regField_eq_some {f : RegNum → Instr} {n : Nat} {i : Instr} (h : (regField n).map f = some i) :
    ∃ ra, n = ra.toNat ∧ i = f ra := by
  obtain ⟨ra, hra, rfl⟩ := Option.map_eq_some_iff.mp h
  exact ⟨ra, eq_toNat_of_regField hra, rfl⟩

/-- A target operand is read as the number it resolves to: itself, or the number of its label. -/
theorem resolved_of_targetField {labels : String → Option Nat} {t : AsmArg} {pck : Addr}
    (h : targetField labels t = some pck) : resolved labels t = .num pck.toNat := by
  cases t with
  | num n => exact congrArg _ (eq_toNat_of_pckField h)
  | label name =>
    obtain ⟨n, hn, hpck⟩ := Option.bind_eq_some_iff.mp h
    simp [resolved, hn, eq_toNat_of_pckField hpck]
  | _ => cases h

theorem map_targetField_eq_some {labels : String → Option Nat} {f : Addr → Instr} {t : AsmArg} {i : Instr}
    (h : (targetField labels t).map f = some i) :
    ∃ pck, [t].map (resolved labels) = [.num pck.toNat] ∧ i = f pck := by
  obtain ⟨pck, ht, rfl⟩ := Option.map_eq_some_iff.mp h
  exact ⟨pck, congrArg (fun a => [a]) (resolved_of_targetField ht), rfl⟩

/-! ### Instructions -/

/-- The text of an instruction assembles to it. -/
theorem asmInstr_asmText (labels : String → Option Nat) (i : Instr) :
    asmInstr labels (asmText i).1 (asmText i).2 = some i := by
  cases i <;> simp [asmText, asmInstr, targetField]

/-- What assembles to an instruction is its text: the numbers of the operands are those of the instruction's fields. The
shapes of R51 fall into five groups by their operands: a register and a literal, two registers, one register, a target,
none; every other text is refused. -/
theorem asmText_of_asmInstr {labels : String → Option Nat} {op : AsmOp} {args : List AsmArg} {i : Instr}
    (h : asmInstr labels op args = some i) : asmText i = (op, args.map (resolved labels)) := by
  unfold asmInstr at h
  split at h
  case h_1 | h_3 | h_5 | h_7 | h_9 | h_11 | h_13 | h_15 =>
    obtain ⟨ra, k, rfl, rfl, rfl⟩ := withRK_eq_some h
    rfl
  case h_2 | h_4 | h_6 | h_8 | h_10 | h_12 | h_14 | h_16 =>
    obtain ⟨ra, rb, rfl, rfl, rfl⟩ := withRR_eq_some h
    rfl
  case h_17 | h_18 | h_19 =>
    obtain ⟨ra, rfl, rfl⟩ := map_regField_eq_some h
    rfl
  case h_20 | h_21 | h_22 | h_23 =>
    obtain ⟨pck, ht, rfl⟩ := map_targetField_eq_some h
    rw [ht]
    rfl
  case h_24 | h_25 =>
    cases h
    rfl
  case h_26 => cases h

/-! ### Programs -/

/-- A partial function that maps a list as a whole maps each of its elements. -/
theorem forall₂_of_mapM {α β : Type} {f : α → Option β} {xs : List α} {ys : List β} (h : xs.mapM f = some ys) :
    List.Forall₂ (fun x y => f x = some y) xs ys := by
  induction xs generalizing ys with
  | nil =>
    cases h
    exact .nil
  | cons x xs ih =>
    simp only [List.mapM_cons, Option.bind_eq_bind, Option.bind_eq_some_iff] at h
    obtain ⟨y, hy, zs, hzs, hys⟩ := h
    cases hys
    exact .cons hy (ih hzs)

/-- What an assembled program is: no label is defined twice, and its image encodes its lines' instructions. -/
theorem assemble_eq_some {m : OpcodeMap} {lines : List AsmLine} {image : List IWord} (h : assemble m lines = some image) :
    (lines.filterMap (·.label)).Nodup ∧ ∃ is, image = is.map (encode m) ∧
      List.Forall₂ (fun (l : AsmLine) i => asmInstr (labelAddr lines) l.op l.args = some i) lines is := by
  unfold assemble at h
  split at h
  case isFalse => cases h
  case isTrue hnodup =>
    split at h
    case h_2 => cases h
    case h_1 is his =>
      obtain ⟨-, himage⟩ := Option.ite_none_right_eq_some.mp h
      cases himage
      exact ⟨hnodup, is, rfl, forall₂_of_mapM his⟩

/-- Where no label is defined twice, a label is the number of the one line that defines it. -/
theorem labelAddr_of_nodup {lines : List AsmLine} (hnodup : (lines.filterMap (·.label)).Nodup) {n : Nat}
    (hn : n < lines.length) {name : String} (hname : lines[n].label = some name) : labelAddr lines name = some n := by
  have hne : ∀ j (hj : j < n), lines[j].label ≠ some name := fun j hj hlabel =>
    List.pairwise_iff_getElem.mp (List.pairwise_filterMap.mp hnodup) j n _ hn hj name hlabel name hname rfl
  exact List.findIdx?_eq_some_iff_getElem.mpr ⟨hn, by simp [hname], fun j hj => by simp [hne j hj]⟩

end Sys2Proof.Machine

namespace Sys2Proof.Claims

open Sys2Proof.Machine

/-- Settles O16, by the two directions: from an instruction to its text, and from an accepted text to its instruction. -/
theorem assemblerAcceptsExactlyTheOperandShapes : Obligations.AssemblerAcceptsExactlyTheOperandShapes :=
  fun labels => ⟨asmInstr_asmText labels, fun _ _ _ => asmText_of_asmInstr⟩

/-- Settles O17: lines and words correspond one to one, and no other line carries the line's label. -/
theorem labelsNameTheAddressOfTheirLine : Obligations.LabelsNameTheAddressOfTheirLine := by
  intro m lines image h
  obtain ⟨hnodup, is, rfl, hlines⟩ := assemble_eq_some h
  refine ⟨by rw [List.length_map, hlines.length_eq], fun n line hline => ?_⟩
  obtain ⟨hn, rfl⟩ := List.getElem?_eq_some_iff.mp hline
  have hn' : n < is.length := hlines.length_eq ▸ hn
  exact ⟨⟨is[n], hlines.get hn hn', by simp [hn']⟩, fun name hname => labelAddr_of_nodup hnodup hn hname⟩

end Sys2Proof.Claims
end

section
/-!
PROOFS. What the ALU answers for each of its nine functions (R54 to R57): a function that keeps to its operands' eight bits
is read off its 8-bit result, the others off the number that the nine-bit result is.
-/

namespace Sys2Proof.Machine

/-! ### Result and flags of an extended result -/

@[simp] theorem toNat_zext9 (v : Byte) : (zext9 v).toNat = v.toNat :=
  BitVec.toNat_setWidth_of_le (by decide)

/-- Result and flags from the number that the extended result is (R55): bit 8 is set from 256 on. -/
theorem aluOut_of_toNat {ext : Ext} {r : Byte} {c z : Bool} (hresult : r.toNat = ext.toNat % 256)
    (hcarry : c = true ↔ 256 ≤ ext.toNat) (hzero : z = true ↔ ext.toNat = 0) : aluOut ext = ⟨r, c, z⟩ := by
  have hr : ext.setWidth 8 = r := BitVec.eq_of_toNat_eq (by simp [hresult])
  have hc : ext.getLsbD 8 = c := by
    have hbit : ext.getLsbD 8 = decide (256 ≤ ext.toNat) := BitVec.getLsbD_last ext
    rw [Bool.eq_iff_iff, hbit, hcarry, decide_eq_true_iff]
  have hz : (ext == 0) = z := by
    rw [Bool.eq_iff_iff, hzero, beq_iff_eq, ← BitVec.toNat_inj]
    rfl
  rw [aluOut, hr, hc, hz]

/-- An extended result with bit 8 clear: the carry is clear, and the zero flag is that of the 8-bit result (R57). -/
theorem aluOut_zext9 (v : Byte) : aluOut (zext9 v) = ⟨v, false, decide (v = 0)⟩ :=
  aluOut_of_toNat (by simp [Nat.mod_eq_of_lt v.isLt]) (by simp [v.isLt]) (by simp [← BitVec.toNat_inj])

/-! ### The functions that keep to eight bits -/

section
variable (ne : NotExt) (a b : Byte)

theorem alu_passA : alu ne .passA a b = ⟨a, false, decide (a = 0)⟩ := aluOut_zext9 a

theorem alu_passB : alu ne .passB a b = ⟨b, false, decide (b = 0)⟩ := aluOut_zext9 b

theorem alu_and : alu ne .and a b = ⟨a &&& b, false, decide (a &&& b = 0)⟩ := by
  rw [← aluOut_zext9, zext9, BitVec.setWidth_and]
  rfl

theorem alu_or : alu ne .or a b = ⟨a ||| b, false, decide (a ||| b = 0)⟩ := by
  rw [← aluOut_zext9, zext9, BitVec.setWidth_or]
  rfl

theorem f9_not_narrow (eb : Ext) : f9 .narrow .not (zext9 a) eb = zext9 (~~~a) := by
  rw [f9, setWidth_zext9]

theorem alu_not_narrow : alu .narrow .not a b = ⟨~~~a, false, decide (~~~a = 0)⟩ := by
  rw [alu, f9_not_narrow, aluOut_zext9]

theorem alu_shr : alu ne .shr a b = ⟨a >>> 1, false, decide (a >>> 1 = 0)⟩ := by
  have hext : f9 ne .shr (zext9 a) (zext9 b) = zext9 (a >>> 1) :=
    BitVec.eq_of_toNat_eq (by simp [f9])
  rw [alu, hext, aluOut_zext9]

/-! ### The functions that reach bit 8 -/

theorem toNat_f9_add : (f9 ne .add (zext9 a) (zext9 b)).toNat = a.toNat + b.toNat := by
  simp only [f9, BitVec.toNat_add, toNat_zext9]
  omega

theorem toNat_f9_sub : (f9 ne .sub (zext9 a) (zext9 b)).toNat = (512 + a.toNat - b.toNat) % 512 := by
  simp only [f9, BitVec.toNat_sub, toNat_zext9]
  omega

theorem toNat_f9_not_wide (eb : Ext) : (f9 .wide .not (zext9 a) eb).toNat = 511 - a.toNat := by
  simp [f9]

theorem toNat_f9_shl (eb : Ext) : (f9 ne .shl (zext9 a) eb).toNat = 2 * a.toNat := by
  simp only [f9, BitVec.toNat_shiftLeft, toNat_zext9, Nat.shiftLeft_eq]
  omega

/-- ADD: the carry is that of the sum, and a sum of 0 has both operands 0 (R57). -/
theorem alu_add : alu ne .add a b = ⟨a + b, decide (256 ≤ a.toNat + b.toNat), decide (a = 0 ∧ b = 0)⟩ := by
  have hext := toNat_f9_add ne a b
  exact aluOut_of_toNat (by simp [hext]) (by simp [hext]) (by simp [hext, ← BitVec.toNat_inj])

/-- SUB: the carry is the borrow, since a negative difference lies in the upper half of the 512 (log entry 19). -/
theorem alu_sub : alu ne .sub a b = ⟨a - b, decide (a.toNat < b.toNat), decide (a = b)⟩ := by
  have hext := toNat_f9_sub ne a b
  refine aluOut_of_toNat ?_ ?_ ?_
  · rw [hext, BitVec.toNat_sub]
    omega
  · rw [hext, decide_eq_true_iff]
    omega
  · rw [hext, decide_eq_true_iff, ← BitVec.toNat_inj]
    omega

/-- NOT of all nine bits: the inverted bit 8 sets the carry, so the extended result is never 0 (C6, log entry 2). -/
theorem alu_not_wide : alu .wide .not a b = ⟨~~~a, true, false⟩ := by
  have hext := toNat_f9_not_wide a (zext9 b)
  refine aluOut_of_toNat ?_ ?_ ?_
  · rw [hext, BitVec.toNat_not]
    omega
  · rw [hext, eq_self_iff_true, true_iff]
    omega
  · rw [hext, Bool.false_eq_true, false_iff]
    omega

/-- SHL: the carry is the bit shifted out, which keeps the zero flag clear (R57). -/
theorem alu_shl : alu ne .shl a b = ⟨a <<< 1, a.getLsbD 7, decide (a = 0)⟩ := by
  have hext := toNat_f9_shl ne a (zext9 b)
  refine aluOut_of_toNat ?_ ?_ ?_
  · rw [hext, BitVec.toNat_shiftLeft, Nat.shiftLeft_eq, Nat.mul_comm]
  · have hbit : a.getLsbD 7 = decide (128 ≤ a.toNat) := BitVec.getLsbD_last a
    rw [hext, hbit, decide_eq_true_iff]
    omega
  · simp [hext, ← BitVec.toNat_inj]

/-! ### Where the zero flag is that of the 8-bit result (R57) -/

theorem zeroFlag_of_bit8_clear {out : AluOut} {v : Byte} (h : out = ⟨v, false, decide (v = 0)⟩) :
    (out.zero = true ↔ out.result = 0) ∧ (out.result = 0 → out.carry = false) := by
  simp [h]

/-- A difference of 0 has equal operands, so nothing was borrowed. -/
theorem zeroFlag_sub : ((alu ne .sub a b).zero = true ↔ (alu ne .sub a b).result = 0) ∧
    ((alu ne .sub a b).result = 0 → (alu ne .sub a b).carry = false) := by
  have hdiff : a - b = 0 ↔ a = b := sub_eq_zero
  simp only [alu_sub, hdiff, decide_eq_true_iff, decide_eq_false_iff_not, true_and]
  rintro rfl
  exact lt_irrefl _

end

end Sys2Proof.Machine

namespace Sys2Proof.Claims

open Sys2Proof.Machine

/-- Settles O18: the rows of the table, with each 8-bit result written as the number it is modulo 256. -/
theorem aluFunctionTable : Obligations.AluFunctionTable := by
  intro ne a b
  have hadd : a + b = BitVec.ofNat 8 (a.toNat + b.toNat) := by bv_omega
  have hsub : a - b = BitVec.ofNat 8 (256 + a.toNat - b.toNat) := by bv_omega
  have hnot : ~~~a = BitVec.ofNat 8 (255 - a.toNat) := by bv_omega
  have hnotZero : ~~~a = 0 ↔ a.toNat = 255 := by bv_omega
  have hshl : a <<< 1 = BitVec.ofNat 8 (2 * a.toNat) := by bv_omega
  have hshr : a >>> 1 = BitVec.ofNat 8 (a.toNat / 2) := by bv_omega
  have hshrZero : a >>> 1 = 0 ↔ a.toNat ≤ 1 := by bv_omega
  refine ⟨?_, hadd ▸ alu_add ne a b, toNat_f9_sub ne a b, hsub ▸ alu_sub ne a b, alu_passA ne a b, alu_passB ne a b,
    alu_and ne a b, alu_or ne a b, toNat_f9_not_wide a _, hnot ▸ alu_not_wide a b, ?_, ?_, ?_,
    hshl ▸ alu_shl ne a b, ?_⟩
  · rw [toNat_f9_add]
    omega
  · rw [f9_not_narrow, toNat_zext9]
    bv_omega
  · simp only [alu_not_narrow, hnotZero, ← hnot]
  · rw [toNat_f9_shl]
    omega
  · simp only [alu_shr, hshrZero, ← hshr]

/-- Settles O19: the corners from the table's rows; SUB has a zero result for equal operands only, and the five others
keep bit 8 clear. -/
theorem zeroFlagIsThatOfTheExtendedResult : Obligations.ZeroFlagIsThatOfTheExtendedResult := by
  intro ne a b
  refine ⟨by simp [alu_add], by simp [alu_add], by simp [alu_add], by simp [alu_shl], ?_⟩
  simp only [List.forall_mem_cons]
  exact ⟨zeroFlag_sub ne a b, zeroFlag_of_bit8_clear (alu_passA ne a b), zeroFlag_of_bit8_clear (alu_passB ne a b),
    zeroFlag_of_bit8_clear (alu_and ne a b), zeroFlag_of_bit8_clear (alu_or ne a b),
    zeroFlag_of_bit8_clear (alu_shr ne a b), List.forall_mem_nil _⟩

end Sys2Proof.Claims
end

section
/-!
PROOFS. A step on a word that decodes is the execution of its instruction (R63), and under `fault` as many nested calls
succeed as the stack has entries (R60).
-/

namespace Sys2Proof.Machine

open Sys2Proof.Claims

/-- The step on a word that decodes (R63). -/
theorem step_of_decode {s : State} {ir : IWord} {i : Instr} (hreset : s.resetIn = false)
    (hword : s.program[s.pc.toNat]? = some ir) (hdec : decode s.params.opcodeMap ir = .ok i) : step s = exec i s := by
  obtain ⟨o, ho, rfl⟩ := decode_ok hdec
  exact step_of_opOf hreset (fetch_ok.mpr hword) ho

/-- Under `fault` a CALL on a full stack stops (R60, R133). -/
theorem exec_call_of_full {s : State} (pck : Addr) (hp : s.params.stackPolicy = .fault) (hfull : s.sp = stackDepth s) :
    exec (.call pck) s = .fault (.stackOverflow s.pc) := by
  simp [exec, execCall, push, hp, hfull]

/-- Calls change the stack and `pc`, and nothing else; the depth stays. -/
theorem runCalls_frame {targets : List Addr} {s t : State} (h : runCalls targets s = .next t) :
    stackDepth t = stackDepth s ∧ ∃ stk sp pc, t = { s with stk := stk, sp := sp, pc := pc } := by
  induction targets generalizing s with
  | nil =>
    cases h
    exact ⟨rfl, _, _, _, rfl⟩
  | cons pck rest ih =>
    rw [runCalls] at h
    split at h
    · rename_i u hu
      obtain ⟨hdepth, stk', sp', pc', rfl⟩ := ih h
      have hdepth' := (sameSetup_exec hu).depth
      obtain ⟨stk, sp, rfl⟩ := execCall_frame hu
      exact ⟨hdepth.trans hdepth', _, _, _, rfl⟩
    · cases h
    · cases h

end Sys2Proof.Machine

namespace Sys2Proof.Claims

open Sys2Proof.Machine

/-- Settles O5: fetch and decode answer, so the step is `exec` of what they answer. -/
theorem stepRunsTheDecodedInstruction : Obligations.StepRunsTheDecodedInstruction :=
  fun _ _ _ hreset hword hdec _ => step_of_decode hreset hword hdec

/-- Settles O38: the calls fit, they move only the stack and `pc`, and the stack they leave is full. -/
theorem exactlyStackDepthNestedCallsSucceed : Obligations.ExactlyStackDepthNestedCallsSucceed := by
  intro s targets hp hempty hlen
  have hfit : s.sp + targets.length = stackDepth s := by omega
  obtain ⟨t, hrun, hsp, -, -⟩ := runCalls_stacks targets s (by simp [hp]) hfit.le
  have hfull : t.sp = stackDepth s := hsp.trans hfit
  obtain ⟨hdepth, stk, sp, pc, rfl⟩ := runCalls_frame hrun
  exact ⟨_, hrun, hfull, rfl, rfl, rfl, rfl, rfl, fun pck => exec_call_of_full pck hp (hfull.trans hdepth.symm)⟩

end Sys2Proof.Claims
end

section
/-!
PROOFS. The fifteen ALU instructions (R70 to R84). Each next state is the shared step of the ALU instructions with the
row that its function has in the ALU's table; each spelling is the fields of its format and the text of the instruction.
-/

namespace Sys2Proof.Machine

open Sys2Proof.Claims

/-! ### The next state, from what the ALU puts out -/

section
variable {i : Instr} {s : State} {f : AluFn} {ra : RegNum} {op2 v : Byte} {c z : Bool}

/-- An ALU instruction with a write-back writes what the ALU puts out. -/
theorem exec_eq_wrote_of_alu (hexec : exec i s = .next (aluToReg f ra op2 s))
    (halu : alu s.params.notExt f (readReg s ra) op2 = ⟨v, c, z⟩) : exec i s = .next (wrote s ra v c z) := by
  rw [hexec, aluToReg_eq, halu, wrote]

/-- A compare writes the flags that the ALU puts out, and not its result. -/
theorem exec_eq_flags_of_alu (hexec : exec i s = .next (aluToFlags f ra op2 s))
    (halu : alu s.params.notExt f (readReg s ra) op2 = ⟨v, c, z⟩) :
    exec i s = .next { s with carry := c, zero := z, pc := s.pc + 1 } := by
  rw [hexec, aluToFlags_eq, halu]

end

/-! ### The zero flag in terms of the operands -/

/-- OR: a result of 0 has both operands 0. -/
theorem alu_or_zero_iff_operands (ne : NotExt) (a b : Byte) :
    alu ne .or a b = ⟨a ||| b, false, decide (a = 0 ∧ b = 0)⟩ := by
  have hzero : a ||| b = 0 ↔ a = 0 ∧ b = 0 := BitVec.or_eq_zero_iff
  simp only [alu_or, hzero]

end Sys2Proof.Machine

namespace Sys2Proof.Claims

open Sys2Proof.Machine

/-! ### Spelling: the decoder reads the layout back, and the assembler makes the instruction of its text (R10) -/

/-- A layout that carries its opcode and is read as `i` spells `i`, with the text that `i` has. -/
theorem spelled_of_layout {i : Instr} {layout : Opcode → IWord} (hcode : ∀ c, opcodeOf (layout c) = c)
    (hfields : ∀ c, instrOf i.op (layout c) = i) : spelled i layout (asmText i).1 (asmText i).2 := by
  refine ⟨fun m hm => ?_, fun labels => asmInstr_asmText labels i⟩
  have hop : opOf m (opcodeOf (layout (m.code i.op))) = some i.op := by rw [hcode, opOf_code hm]
  rw [decode_of_opOf hop, hfields]

section
variable {ra rb : RegNum} {k u8 : Byte} {u5 : BitVec 5}

/-- The layout of format RK spells the instruction `f ra k` whose operands are read from the fields Ra and K. -/
theorem spelled_RK (f : RegNum → Byte → Instr) (hf : ∀ ir, instrOf (f ra k).op ir = f (raOf ir) (kOf ir)) :
    spelled (f ra k) (fun c => c ++ ra ++ k) (asmText (f ra k)).1 (asmText (f ra k)).2 :=
  spelled_of_layout (fun c => opcodeOf_appendRK c ra k) fun c => by rw [hf, raOf_appendRK, kOf_appendRK]

/-- The layout of format RR, with any unused bits, for an instruction whose operands are the fields Ra and Rb. -/
theorem spelled_RR (f : RegNum → RegNum → Instr) (hf : ∀ ir, instrOf (f ra rb).op ir = f (raOf ir) (rbOf ir)) :
    spelled (f ra rb) (fun c => c ++ ra ++ rb ++ u5) (asmText (f ra rb)).1 (asmText (f ra rb)).2 :=
  spelled_of_layout (fun c => opcodeOf_appendRR c ra rb u5) fun c => by rw [hf, raOf_appendRR, rbOf_appendRR]

/-- The layout of format R, with any unused bits, for an instruction whose one operand is the field Ra. -/
theorem spelled_R (f : RegNum → Instr) (hf : ∀ ir, instrOf (f ra).op ir = f (raOf ir)) :
    spelled (f ra) (fun c => c ++ ra ++ u8) (asmText (f ra)).1 (asmText (f ra)).2 :=
  spelled_of_layout (fun c => opcodeOf_appendR c ra u8) fun c => by rw [hf, raOf_appendR]

end

/-! ### The instructions -/

/-- Settles O20: both forms by the ALU's row for ADD. -/
theorem addCompletes : Obligations.AddCompletes := fun _ _ _ _ _ =>
  ⟨exec_eq_wrote_of_alu rfl (alu_add ..), spelled_RK .addRK fun _ => rfl,
    exec_eq_wrote_of_alu rfl (alu_add ..), spelled_RR .addRR fun _ => rfl⟩

/-- Settles O21: both forms by the ALU's row for SUB. -/
theorem subCompletes : Obligations.SubCompletes := fun _ _ _ _ _ =>
  ⟨exec_eq_wrote_of_alu rfl (alu_sub ..), spelled_RK .subRK fun _ => rfl,
    exec_eq_wrote_of_alu rfl (alu_sub ..), spelled_RR .subRR fun _ => rfl⟩

/-- Settles O22: both forms by the ALU's row for AND. -/
theorem andCompletes : Obligations.AndCompletes := fun _ _ _ _ _ =>
  ⟨exec_eq_wrote_of_alu rfl (alu_and ..), spelled_RK .andRK fun _ => rfl,
    exec_eq_wrote_of_alu rfl (alu_and ..), spelled_RR .andRR fun _ => rfl⟩

/-- Settles O23: both forms by the ALU's row for OR, its zero flag read off the operands. -/
theorem orCompletes : Obligations.OrCompletes := fun _ _ _ _ _ =>
  ⟨exec_eq_wrote_of_alu rfl (alu_or_zero_iff_operands ..), spelled_RK .orRK fun _ => rfl,
    exec_eq_wrote_of_alu rfl (alu_or_zero_iff_operands ..), spelled_RR .orRR fun _ => rfl⟩

/-- Settles O24: the flags of the ALU's row for SUB, whose result is dropped. -/
theorem cmpCompletes : Obligations.CmpCompletes := fun _ _ _ _ _ =>
  ⟨exec_eq_flags_of_alu rfl (alu_sub ..), spelled_RK .cmpRK fun _ => rfl,
    exec_eq_flags_of_alu rfl (alu_sub ..), spelled_RR .cmpRR fun _ => rfl⟩

/-- Settles O25: both forms by the ALU's row for PASS_B. -/
theorem movCompletes : Obligations.MovCompletes := fun _ _ _ _ _ =>
  ⟨exec_eq_wrote_of_alu rfl (alu_passB ..), spelled_RK .movRK fun _ => rfl,
    exec_eq_wrote_of_alu rfl (alu_passB ..), spelled_RR .movRR fun _ => rfl⟩

/-- Settles O26: the table's row for NOT under each value of `NOT_EXT`. -/
theorem notCompletes : Obligations.NotCompletes := by
  intro s ra u
  obtain ⟨-, -, -, -, -, -, -, -, -, hwide, -, hnarrow, -⟩ := aluFunctionTable s.params.notExt (readReg s ra) 0
  have hzero : (readReg s ra).toNat = 255 ↔ readReg s ra = 0xFF := by bv_omega
  simp only [hzero] at hnarrow
  refine ⟨fun hne => ?_, fun hne => ?_, spelled_R .notR fun _ => rfl⟩
  · exact exec_eq_wrote_of_alu rfl (hne ▸ hwide)
  · exact exec_eq_wrote_of_alu rfl (hne ▸ hnarrow)

/-- Settles O27: the table's rows for SHL and SHR; the values that SHR takes to 0 are those below 2. -/
theorem shiftsComplete : Obligations.ShiftsComplete := by
  intro s ra u
  obtain ⟨-, -, -, -, -, -, -, -, -, -, -, -, -, hshl, hshr⟩ := aluFunctionTable s.params.notExt (readReg s ra) 0
  have hzero : (readReg s ra).toNat ≤ 1 ↔ readReg s ra = 0 ∨ readReg s ra = 1 := by bv_omega
  simp only [hzero] at hshr
  exact ⟨exec_eq_wrote_of_alu rfl hshl, spelled_R .shlR fun _ => rfl,
    exec_eq_wrote_of_alu rfl hshr, spelled_R .shrR fun _ => rfl⟩

end Sys2Proof.Claims
end

section
/-!
PROOFS. The four memory instructions (R100 to R103). Each is the shared load or store at its operand 2, the literal `K` or
`x[Rb]` before the step; each spelling is the fields of its format and the text of the instruction.
-/

namespace Sys2Proof.Machine

section
variable {s : State} {i : Instr} {ra : RegNum} {a : Byte}

/-! ### Operand 2 is the address -/

/-- Both forms of a load are the load from operand 2 (R100, R101). -/
theorem exec_eq_loadFrom (h : i = .loadK ra a ∨ ∃ rb, i = .loadR ra rb ∧ a = readReg s rb) :
    exec i s = .next (loadFrom ra a s) := by
  obtain rfl | ⟨rb, rfl, rfl⟩ := h
  · rfl
  · rfl

/-- Both forms of a store are the store at operand 2 (R102, R103). -/
theorem exec_eq_storeTo (h : i = .storeK ra a ∨ ∃ rb, i = .storeR ra rb ∧ a = readReg s rb) :
    exec i s = .next (storeTo ra a s) := by
  obtain rfl | ⟨rb, rfl, rfl⟩ := h
  · rfl
  · rfl

/-! ### The data memory after a store -/

/-- A store leaves every byte but the one at its address (R38, R32). -/
theorem memRead_storeTo_of_ne {b : Nat} (hne : b ≠ a.toNat) : memRead (storeTo ra a s).mem b = memRead s.mem b := by
  rw [storeTo_eq]
  cases isIO s a with
  | false => exact (memRead_memWrite ..).trans (if_neg hne)
  | true => rfl

/-- Plain memory holds the byte of a store at its address (R38). -/
theorem memRead_storeTo_of_plain (hplain : isIO s a = false) :
    memRead (storeTo ra a s).mem a.toNat = some (readReg s ra) := by
  simp [storeTo_eq, hplain, memRead_memWrite]

/-- A store to an I/O device leaves the data memory (D27). -/
theorem mem_storeTo_of_io (hio : isIO s a = true) : (storeTo ra a s).mem = s.mem := by
  simp [storeTo_eq, hio]

end

end Sys2Proof.Machine

namespace Sys2Proof.Claims

open Sys2Proof.Machine

/-- Settles O29: the byte is what the device answers at operand 2, which in plain memory is the byte last written. -/
theorem loadCompletes : Obligations.LoadCompletes := by
  refine ⟨fun s i ra a hload => ⟨dataIn s a, ?_, fun hplain w hw => dataIn_of_written hplain hw⟩, fun ra rb k u => ?_⟩
  · rw [exec_eq_loadFrom hload, loadFrom_eq]
  · exact ⟨spelled_RK .loadK fun _ => rfl, spelled_RR .loadR fun _ => rfl⟩

/-- Settles O30: the memory is the one the shared store leaves; the rest of its state is what the statement writes out. -/
theorem storeCompletes : Obligations.StoreCompletes := by
  refine ⟨fun s i ra a hstore => ⟨(storeTo ra a s).mem, ?_, fun _ => memRead_storeTo_of_ne, memRead_storeTo_of_plain,
    mem_storeTo_of_io⟩, fun ra rb k u => ?_⟩
  · rw [exec_eq_storeTo hstore, storeTo_eq]
  · exact ⟨spelled_RK .storeK fun _ => rfl, spelled_RR .storeR fun _ => rfl⟩

end Sys2Proof.Claims
end

section
/-!
PROOFS. Control transfer (R110 to R115): what a pop answers, that a pop undoes a push, the jumps, CALL and RET with their
spelling, and that only CALL and RET can stop (R117).
-/

namespace Sys2Proof.Machine

open Sys2Proof.Claims

/-! ### What a pop answers, from its cause -/

section
variable {s : State}

/-- With an entry in use, every policy answers the entry below the pointer: `wrap` too, as its pointer is below the depth. -/
theorem pop_of_entries (hentry : s.sp ≠ 0) (hwrap : s.params.stackPolicy = .wrap → s.sp < stackDepth s) :
    pop s = .ok (stkAt s (s.sp - 1), { s with sp := s.sp - 1 }) := by
  cases hp : s.params.stackPolicy with
  | fault => simp [pop, hp, hentry]
  | wrap =>
    have hlt := hwrap hp
    have hbelow : (s.sp + stackDepth s - 1) % stackDepth s = s.sp - 1 := by
      rw [Nat.sub_add_comm (by omega), Nat.add_mod_right, Nat.mod_eq_of_lt (by omega)]
    simp [pop, hp, hbelow]
  | saturate => simp [pop, hp, hentry]

/-- Under `wrap` an empty stack answers its last entry. -/
theorem pop_of_wrap_empty (hp : s.params.stackPolicy = .wrap) (hempty : s.sp = 0) (hdepth : 1 ≤ stackDepth s) :
    pop s = .ok (stkAt s (stackDepth s - 1), { s with sp := stackDepth s - 1 }) := by
  have hlast : (stackDepth s - 1) % stackDepth s = stackDepth s - 1 := Nat.mod_eq_of_lt (by omega)
  simp [pop, hp, hempty, hlast]

/-- Under `saturate` an empty stack answers its first entry and stays empty. -/
theorem pop_of_saturate_empty (hp : s.params.stackPolicy = .saturate) (hempty : s.sp = 0) :
    pop s = .ok (stkAt s 0, s) := by
  simp [pop, hp, hempty]

/-- `RET` from what its pop answers. -/
theorem execRet_of_pop {u : State} {v : Addr} (h : pop s = .ok (v, u)) : exec .ret s = .next (setPc u v) := by
  simp only [exec, execRet, h]

/-- Under `fault` a RET on an empty stack stops (R61, R133). -/
theorem exec_ret_of_empty (hp : s.params.stackPolicy = .fault) (hempty : s.sp = 0) :
    exec .ret s = .fault (.stackUnderflow s.pc) := by
  simp [exec, execRet, pop, hp, hempty]

end

/-! ### A pop undoes a push -/

/-- A push that is not dropped stores its value at the pointer. The pointer then stands one above it, and under `wrap`
below the depth; or the entry was the last one under `wrap`, and the pointer starts over at 0. -/
theorem push_stores {v : Addr} {s t : State} (hs : Inv s)
    (hkept : s.params.stackPolicy = .saturate → s.sp ≠ stackDepth s) (h : push v s = .ok t) :
    t.params = s.params ∧ t.stk = s.stk.set s.sp v ∧ s.sp < stackDepth s ∧
      ((t.sp = s.sp + 1 ∧ (s.params.stackPolicy = .wrap → s.sp + 1 < stackDepth s)) ∨
        (s.params.stackPolicy = .wrap ∧ s.sp + 1 = stackDepth s ∧ t.sp = 0)) := by
  rcases push_cases h with ⟨sp, rfl, ⟨hp, rfl⟩ | ⟨hp, hroom, rfl⟩⟩ | ⟨hp, hfull, rfl⟩
  · have hlt := hs.spWrap hp
    refine ⟨rfl, rfl, hlt, ?_⟩
    rcases Nat.lt_or_eq_of_le (Nat.succ_le_of_lt hlt) with hnext | hlast
    · exact .inl ⟨Nat.mod_eq_of_lt hnext, fun _ => hnext⟩
    · exact .inr ⟨hp, hlast, hlast ▸ Nat.mod_self _⟩
  · exact ⟨rfl, rfl, Nat.lt_of_le_of_ne hs.sp hroom, .inl ⟨rfl, fun hw => absurd hw hp⟩⟩
  · exact absurd hfull (hkept hp)

/-- A pop from the stack that a push left, whatever else has changed since, answers the value pushed and the pointer
before the push. -/
theorem pop_of_push {v : Addr} {s t u : State} (hs : Inv s)
    (hkept : s.params.stackPolicy = .saturate → s.sp ≠ stackDepth s) (h : push v s = .ok t)
    (hstk : u.stk = t.stk) (hsp : u.sp = t.sp) (hparams : u.params = t.params) :
    pop u = .ok (v, { u with sp := s.sp }) := by
  obtain ⟨tparams, tstk, hroom, hpointer⟩ := push_stores hs hkept h
  rw [tparams] at hparams
  rw [tstk] at hstk
  have hdepth : stackDepth u = stackDepth s := (congrArg List.length hstk).trans List.length_set
  have hentry : stkAt u s.sp = v := by rw [stkAt_of_set hstk hroom, if_pos rfl]
  rcases hpointer with ⟨tsp, hbelow⟩ | ⟨hp, hlast, tsp⟩
  · have husp : u.sp = s.sp + 1 := hsp.trans tsp
    rw [pop_of_entries (by omega) (by rw [hparams, husp, hdepth]; exact hbelow), husp, Nat.add_sub_cancel, hentry]
  · rw [pop_of_wrap_empty (hparams ▸ hp) (hsp.trans tsp) (hdepth ▸ hs.depth), hdepth, ← hlast, Nat.add_sub_cancel, hentry]

/-! ### The only instructions that can stop -/

/-- An instruction completes, or it is CALL on a full stack or RET on an empty one, both under `fault`, and stops. -/
theorem exec_completes_or_stops (i : Instr) (s : State) :
    (∃ t, exec i s = .next t) ∨
      (s.params.stackPolicy = .fault ∧
        (((∃ pck, i = .call pck) ∧ s.sp = stackDepth s ∧ exec i s = .fault (.stackOverflow s.pc)) ∨
          (i = .ret ∧ s.sp = 0 ∧ exec i s = .fault (.stackUnderflow s.pc)))) := by
  cases course i with
  | aluToReg f ra sel k rb _ _ hexec => exact .inl ⟨_, hexec s⟩
  | aluToFlags f ra sel k rb _ hexec => exact .inl ⟨_, hexec s⟩
  | load ra sel k rb _ _ hexec => exact .inl ⟨_, hexec s⟩
  | store ra sel k rb _ hexec => exact .inl ⟨_, hexec s⟩
  | transfer target _ _ hexec => exact .inl ⟨_, hexec s⟩
  | call pck hi =>
    subst hi
    cases hpush : push (s.pc + 1) s with
    | ok u => exact .inl ⟨_, execCall_of_push hpush⟩
    | error f =>
      obtain ⟨-, hp, hfull⟩ := push_error hpush
      exact .inr ⟨hp, .inl ⟨⟨pck, rfl⟩, hfull, exec_call_of_full pck hp hfull⟩⟩
  | ret hi =>
    subst hi
    cases hpop : pop s with
    | ok answer => exact .inl ⟨_, execRet_of_pop hpop⟩
    | error f =>
      obtain ⟨-, hp, hempty⟩ := pop_error hpop
      exact .inr ⟨hp, .inr ⟨rfl, hempty, exec_ret_of_empty hp hempty⟩⟩

end Sys2Proof.Machine

namespace Sys2Proof.Claims

open Sys2Proof.Machine

/-! ### Spelling of the formats A and N -/

/-- The layout of format A spells the instruction `f pck` whose operand is read from the field PCK. -/
theorem spelled_A {pck : Addr} (f : Addr → Instr) (hf : ∀ ir, instrOf (f pck).op ir = f (pckOf ir)) :
    spelled (f pck) (fun c => c ++ pck) (asmText (f pck)).1 (asmText (f pck)).2 :=
  spelled_of_layout (fun c => opcodeOf_appendA c pck) fun c => by rw [hf, pckOf_appendA]

/-- The layout of format N, with any unused bits, for an instruction without operands. -/
theorem spelled_N {u : BitVec 11} (i : Instr) (hi : ∀ ir, instrOf i.op ir = i) :
    spelled i (fun c => c ++ u) (asmText i).1 (asmText i).2 :=
  spelled_of_layout (fun c => opcodeOf_appendN c u) fun _ => hi _

/-! ### The instructions -/

/-- Settles O36: each policy's pop, with entries and without; in a sound state the pointer of `wrap` is below the depth. -/
theorem retCompletesOrUnderflows : Obligations.RetCompletesOrUnderflows := by
  refine ⟨fun s hs => ⟨fun hentry => ?_, fun hp hempty => ?_, fun hp hempty => ?_, exec_ret_of_empty⟩,
    fun u => spelled_N .ret fun _ => rfl⟩
  · exact execRet_of_pop (pop_of_entries hentry hs.spWrap)
  · exact execRet_of_pop (pop_of_wrap_empty hp hempty hs.depth)
  · exact execRet_of_pop (pop_of_saturate_empty hp hempty)

/-- Settles O37: CALL pushes `pc + 1`, and the pop of RET undoes that push. -/
theorem retReturnsToTheInstructionAfterCall : Obligations.RetReturnsToTheInstructionAfterCall := by
  intro s t u pck hs hkept hcall hstk hsp hparams
  obtain ⟨w, hpush, rfl⟩ := execCall_next hcall
  exact execRet_of_pop (pop_of_push hs hkept hpush hstk hsp hparams)

/-- Settles O45: an instruction completes or stops, so it is not refused; it stops only as CALL or RET under `fault`. -/
theorem everyInstructionMayRunAtAnyTime : Obligations.EveryInstructionMayRunAtAnyTime := by
  intro i s
  rcases exec_completes_or_stops i s with ⟨t, ht⟩ | ⟨hp, ⟨⟨pck, rfl⟩, -, hstop⟩ | ⟨rfl, -, hstop⟩⟩
  · exact ⟨by simp [ht], fun _ => ⟨t, ht⟩⟩
  · exact ⟨by simp [hstop], by simp [hp]⟩
  · exact ⟨by simp [hstop], by simp [hp]⟩

/-- Settles O33: both set `pc` and nothing else. -/
theorem jmpAndNopComplete : Obligations.JmpAndNopComplete := fun s _ _ =>
  ⟨rfl, spelled_A .jmp fun _ => rfl, exec_nop s, spelled_N .nop fun _ => rfl⟩

/-- Settles O34: each is a transfer whose target its flag selects. -/
theorem conditionalJumpsComplete : Obligations.ConditionalJumpsComplete := fun s pck =>
  ⟨congrArg _ (jumpIf_eq s.carry pck s), spelled_A .jc fun _ => rfl,
    congrArg _ (jumpIf_eq s.zero pck s), spelled_A .jz fun _ => rfl⟩

/-- Settles O35: CALL by what its push answers under each policy, below and at the limit. -/
theorem callCompletesOrOverflows : Obligations.CallCompletesOrOverflows := by
  refine fun s pck => ⟨fun hp hroom => ?_, fun hp => ?_, fun hp hfull => ?_, exec_call_of_full pck,
    spelled_A .call fun _ => rfl⟩
  · exact execCall_of_push (push_of_room _ hp hroom)
  · exact execCall_of_push (push_of_wrap _ hp)
  · exact execCall_of_push (push_of_saturated _ hp hfull)

end Sys2Proof.Claims
end

section
/-!
PROOFS. The stops: a step stops exactly for its four causes in their priority (R134, R135), and a run stops exactly at the
first stop it reaches, at the offending instruction (R136).
-/

namespace Sys2Proof.Machine

open Sys2Proof.Claims

/-! ### What makes a step stop -/

/-- The stop of the decoding and its cause (R132). -/
theorem decodeFetched_error_iff {s : State} {ir : IWord} {f : Fault} : decodeFetched s ir = .error f ↔
    (∀ o : Op, s.params.opcodeMap.code o ≠ opcodeOf ir) ∧ f = .undefinedOpcodeStall s.pc ir := by
  constructor
  · intro h
    obtain ⟨hf, hnone⟩ := decodeFetched_error h
    exact ⟨(opOf_eq_none ..).mp hnone, hf⟩
  · rintro ⟨hnone, rfl⟩
    exact decodeFetched_of_undefined ((opOf_eq_none ..).mpr hnone)

/-- The stops of an execution and their causes (R133). -/
theorem exec_fault_iff {i : Instr} {s : State} {f : Fault} : exec i s = .fault f ↔
    s.params.stackPolicy = .fault ∧
      (((∃ pck, i = .call pck) ∧ s.sp = stackDepth s ∧ f = .stackOverflow s.pc) ∨
        (i = .ret ∧ s.sp = 0 ∧ f = .stackUnderflow s.pc)) := by
  constructor
  · intro h
    rcases exec_completes_or_stops i s with ⟨t, ht⟩ | ⟨hp, ⟨hcall, hfull, hstop⟩ | ⟨hret, hempty, hstop⟩⟩
    · cases ht.symm.trans h
    · cases hstop.symm.trans h
      exact ⟨hp, .inl ⟨hcall, hfull, rfl⟩⟩
    · cases hstop.symm.trans h
      exact ⟨hp, .inr ⟨hret, hempty, rfl⟩⟩
  · rintro ⟨hp, ⟨⟨pck, rfl⟩, hfull, rfl⟩ | ⟨rfl, hempty, rfl⟩⟩
    · exact exec_call_of_full pck hp hfull
    · exact exec_ret_of_empty hp hempty

/-- The stops of executing what the decoder answers, read from its answer `d`. -/
theorem decode_then_exec_fault_iff {d : Except DecodeError Instr} {s : State} {f : Fault} :
    (∃ i, d = .ok i ∧ exec i s = .fault f) ↔
      s.params.stackPolicy = .fault ∧
        (((∃ pck, d = .ok (.call pck)) ∧ s.sp = stackDepth s ∧ f = .stackOverflow s.pc) ∨
          (d = .ok .ret ∧ s.sp = 0 ∧ f = .stackUnderflow s.pc)) := by
  cases d with
  | error e => simp
  | ok i => simp [exec_fault_iff]

/-- A step stops where its fetch does, else where the decoding does, else where the execution does (R135). -/
theorem step_fault_iff {s : State} {f : Fault} : step s = .fault f ↔
    s.resetIn = false ∧ (fetch s = .error f ∨ ∃ ir, fetch s = .ok ir ∧
      (decodeFetched s ir = .error f ∨ ∃ i, decodeFetched s ir = .ok i ∧ exec i s = .fault f)) := by
  cases hreset : s.resetIn with
  | true => simp [step, hreset]
  | false =>
    cases hfetch : fetch s with
    | error g => simp [step, hreset, hfetch]
    | ok ir => cases hdec : decodeFetched s ir <;> simp [step, hreset, hfetch, hdec]

/-- A stop records the `pc` of the step that raised it (R131). -/
theorem faultPc_of_step {s : State} {f : Fault} (h : step s = .fault f) : faultPc f = s.pc := by
  obtain ⟨-, hfetch | ⟨ir, -, hdec | ⟨i, -, hexec⟩⟩⟩ := step_fault_iff.mp h
  · obtain ⟨-, rfl⟩ := fetch_error.mp hfetch
    rfl
  · obtain ⟨-, rfl⟩ := decodeFetched_error_iff.mp hdec
    rfl
  · obtain ⟨-, ⟨-, -, rfl⟩ | ⟨-, -, rfl⟩⟩ := exec_fault_iff.mp hexec <;> rfl

/-! ### A run, from its first step -/

/-- A run of one step more, in any machine: the step answers, and the run goes on from there. -/
theorem hostRun_succ_eq_next {M : Host.Core} {s t : M.State} {k : Nat} : M.run (k + 1) s = .next t ↔
    ∃ u, M.step s = .next u ∧ M.run k u = .next t := by
  cases hstep : M.step s <;> simp [Host.Core.run, hstep]

section
variable {endPcs : List Addr} {s t : State} {k : Nat}

/-- The same of this machine, whose step is `step`. -/
theorem run_succ_eq_next : Sys2Proof.core.run (k + 1) s = .next t ↔
    ∃ u, step s = .next u ∧ Sys2Proof.core.run k u = .next t :=
  hostRun_succ_eq_next

/-- A run of one state more: the first is not an end, nor is any of the run from the next. -/
theorem noEndBefore_succ : noEndBefore endPcs (k + 1) s ↔
    s.pc ∉ endPcs ∧ ∀ u, step s = .next u → noEndBefore endPcs k u := by
  constructor
  · intro h
    exact ⟨h 0 s k.succ_pos rfl, fun u hu j v hj hv =>
      h (j + 1) v (Nat.succ_lt_succ hj) (run_succ_eq_next.mpr ⟨u, hu, hv⟩)⟩
  · rintro ⟨hs, hnext⟩ (_ | j) v hj hv
    · cases hv
      exact hs
    · obtain ⟨u, hu, hv⟩ := run_succ_eq_next.mp hv
      exact hnext u hu j v (Nat.lt_of_succ_lt_succ hj) hv

theorem noEndBefore_zero : noEndBefore endPcs 0 s :=
  fun _ _ hj => absurd hj (Nat.not_lt_zero _)

theorem noEndBefore_succ_of_step {u : State} (h : step s = .next u) :
    noEndBefore endPcs (k + 1) s ↔ s.pc ∉ endPcs ∧ noEndBefore endPcs k u := by
  simp [noEndBefore_succ, h]

/-- A run of at most `n + 1` steps stops if the first step does, or the run from the next state. -/
theorem runTo_succ_eq_stopped {n : Nat} {f : Fault} (hend : s.pc ∉ endPcs) : runTo endPcs (n + 1) s = .stopped f t ↔
    (step s = .fault f ∧ t = s) ∨ ∃ u, step s = .next u ∧ runTo endPcs n u = .stopped f t := by
  cases hstep : step s <;> simp [runTo, hend, hstep, eq_comm]

/-- A run stands in a stop exactly when it reaches, before any end, a state whose step raises it (R136). -/
theorem runTo_eq_stopped {f : Fault} (n : Nat) : runTo endPcs n s = .stopped f t ↔
    step t = .fault f ∧ ∃ k, k < n ∧ Sys2Proof.core.run k s = .next t ∧ noEndBefore endPcs (k + 1) s := by
  induction n generalizing s with
  | zero => by_cases hend : s.pc ∈ endPcs <;> simp [runTo, hend]
  | succ n ih =>
    by_cases hend : s.pc ∈ endPcs
    · simp [runTo, noEndBefore_succ, hend]
    rw [runTo_succ_eq_stopped hend]
    constructor
    · rintro (⟨hstop, rfl⟩ | ⟨u, hu, hrest⟩)
      · exact ⟨hstop, 0, n.succ_pos, rfl, noEndBefore_succ.mpr ⟨hend, fun _ _ => noEndBefore_zero⟩⟩
      · obtain ⟨hstop, k, hk, hrun, hno⟩ := ih.mp hrest
        exact ⟨hstop, k + 1, Nat.succ_lt_succ hk, run_succ_eq_next.mpr ⟨u, hu, hrun⟩,
          (noEndBefore_succ_of_step hu).mpr ⟨hend, hno⟩⟩
    · rintro ⟨hstop, _ | k, hk, hrun, hno⟩
      · cases hrun
        exact .inl ⟨hstop, rfl⟩
      · obtain ⟨u, hu, hrun⟩ := run_succ_eq_next.mp hrun
        obtain ⟨-, hrest⟩ := (noEndBefore_succ_of_step hu).mp hno
        exact .inr ⟨u, hu, ih.mpr ⟨hstop, k, Nat.lt_of_succ_lt_succ hk, hrun, hrest⟩⟩

end

end Sys2Proof.Machine

namespace Sys2Proof.Claims

open Sys2Proof.Machine

/-- Settles O6: such a fetch answers the stop. -/
theorem fetchOutsideTheImageStops : Obligations.FetchOutsideTheImageStops :=
  fun _ hreset hout => step_of_fetch_error hreset (fetch_error.mpr ⟨hout, rfl⟩)

/-- Settles O44: the causes of fetch, decoding and execution, in the order in which a step does them. -/
theorem stopsHaveTheirCausesInPriority : Obligations.StopsHaveTheirCausesInPriority := by
  intro s f
  simp only [step_fault_iff, fetch_error, fetch_ok, decodeFetched_error_iff, decodeFetched_ok,
    decode_then_exec_fault_iff]

/-- Settles O47: by induction on the number of steps, and since every stop records its step's `pc`. -/
theorem stopsArePrecise : Obligations.StopsArePrecise :=
  fun _ n _ _ _ => ⟨runTo_eq_stopped n, faultPc_of_step⟩

end Sys2Proof.Claims
end

section
/-!
PROOFS. Reset and the order of the steps: what a step with `reset` asserted does (R29, R150 to R152), a conditional jump
right after a compare (R154), and the end of a run (R158).
-/

namespace Sys2Proof.Machine

open Sys2Proof.Claims

/-! ### A step with `reset` asserted -/

theorem step_of_reset {s : State} (hreset : s.resetIn = true) : step s = .next (resetStep s) := by
  simp [step, hreset]

/-- A reset step takes its values from the parameters, which it keeps, so a second one changes nothing. -/
theorem resetStep_resetStep (s : State) : resetStep (resetStep s) = resetStep s := rfl

/-- A state that a step of the machine leads back to is the state after any number of steps. -/
theorem hostRun_of_fixed {M : Host.Core} {s : M.State} (hstep : M.step s = .next s) (n : Nat) : M.run n s = .next s := by
  induction n with
  | zero => rfl
  | succ n ih => exact hostRun_succ_eq_next.mpr ⟨s, hstep, ih⟩

/-- While `reset` is held, the state after a reset step stays (R151). -/
theorem run_resetStep {s : State} (hreset : s.resetIn = true) (n : Nat) :
    Sys2Proof.core.run n (resetStep s) = .next (resetStep s) := by
  have hstep : step (resetStep s) = .next (resetStep s) := by
    rw [step_of_reset ((resetStep_resetIn s).trans hreset), resetStep_resetStep]
  exact hostRun_of_fixed (M := Sys2Proof.core) hstep n

/-! ### A conditional jump right after a compare -/

/-- `s` after a compare of `x[Ra]` with `op2`: the flags of the subtraction (D28) and the next `pc`, all else as in `s`. -/
def compared (s : State) (ra : RegNum) (op2 : Byte) : State :=
  { s with carry := decide ((readReg s ra).toNat < op2.toNat), zero := decide (readReg s ra = op2), pc := s.pc + 1 }

section
variable {s : State} {ra : RegNum} {op2 : Byte}

/-- The carry of a compare is the borrow: the first operand is the smaller one. -/
theorem compared_carry : (compared s ra op2).carry = true ↔ (readReg s ra).toNat < op2.toNat := decide_eq_true_iff

theorem compared_zero : (compared s ra op2).zero = true ↔ readReg s ra = op2 := decide_eq_true_iff

/-- A jump that is not taken goes on two words after the compare before it. -/
theorem compared_pc_add_one : (compared s ra op2).pc + 1 = s.pc + 2 := BitVec.add_assoc s.pc 1 1

/-- Both forms of CMP answer the compared state (R78, R79). -/
theorem exec_cmp {i : Instr} (h : i = .cmpRK ra op2 ∨ ∃ rb, i = .cmpRR ra rb ∧ op2 = readReg s rb) :
    exec i s = .next (compared s ra op2) := by
  rcases h with rfl | ⟨rb, rfl, rfl⟩
  · exact exec_eq_flags_of_alu rfl (alu_sub ..)
  · exact exec_eq_flags_of_alu rfl (alu_sub ..)

end

/-! ### The end of a run -/

section
variable {endPcs : List Addr} {s t : State}

/-- At an end address a run ends at once, whatever its bound (R158). -/
theorem runTo_of_end (hend : s.pc ∈ endPcs) (n : Nat) : runTo endPcs n s = .ended s := by
  cases n <;> simp [runTo, hend]

/-- A run of at most `n + 1` steps that is not at its end goes on with its first step, if it is to end. -/
theorem runTo_succ_eq_ended {n : Nat} (hend : s.pc ∉ endPcs) : runTo endPcs (n + 1) s = .ended t ↔
    ∃ u, step s = .next u ∧ runTo endPcs n u = .ended t := by
  cases hstep : step s <;> simp [runTo, hend, hstep]

/-- A run ends exactly in the first state it reaches that is at an end address (R158). -/
theorem runTo_eq_ended (n : Nat) : runTo endPcs n s = .ended t ↔
    t.pc ∈ endPcs ∧ ∃ k, k ≤ n ∧ Sys2Proof.core.run k s = .next t ∧ noEndBefore endPcs k s := by
  induction n generalizing s with
  | zero =>
    constructor
    · intro h
      by_cases hend : s.pc ∈ endPcs
      · cases (runTo_of_end hend 0).symm.trans h
        exact ⟨hend, 0, Nat.le_refl 0, rfl, noEndBefore_zero⟩
      · simp [runTo, hend] at h
    · rintro ⟨hend, k, hk, hrun, -⟩
      cases Nat.le_zero.mp hk
      cases hrun
      exact runTo_of_end hend 0
  | succ n ih =>
    constructor
    · intro h
      by_cases hend : s.pc ∈ endPcs
      · cases (runTo_of_end hend (n + 1)).symm.trans h
        exact ⟨hend, 0, Nat.zero_le _, rfl, noEndBefore_zero⟩
      · obtain ⟨u, hu, hrest⟩ := (runTo_succ_eq_ended hend).mp h
        obtain ⟨ht, k, hk, hrun, hno⟩ := ih.mp hrest
        exact ⟨ht, k + 1, Nat.succ_le_succ hk, run_succ_eq_next.mpr ⟨u, hu, hrun⟩,
          (noEndBefore_succ_of_step hu).mpr ⟨hend, hno⟩⟩
    · rintro ⟨ht, _ | k, hk, hrun, hno⟩
      · cases hrun
        exact runTo_of_end ht (n + 1)
      · obtain ⟨u, hu, hrun⟩ := run_succ_eq_next.mp hrun
        obtain ⟨hend, hno⟩ := (noEndBefore_succ_of_step hu).mp hno
        exact (runTo_succ_eq_ended hend).mpr ⟨u, hu, ih.mpr ⟨ht, k, Nat.le_of_succ_le_succ hk, hrun, hno⟩⟩

end

end Sys2Proof.Machine

namespace Sys2Proof.Claims

open Sys2Proof.Machine

/-- Settles O46: the compare leaves the flags of the subtraction, and the jump's target is the one its flag selects. -/
theorem branchAfterCompareSeesItsFlags : Obligations.BranchAfterCompareSeesItsFlags := by
  intro s i ra op2 pck hcmp
  obtain ⟨hjc, -, hjz, -⟩ := conditionalJumpsComplete (compared s ra op2) pck
  simp only [compared_carry, compared_zero, compared_pc_add_one] at hjc hjz
  exact ⟨compared s ra op2, exec_cmp hcmp, hjz, hjc⟩

/-- Settles O48: by induction on the number of steps. -/
theorem runEndsAtTheFirstEndAddress : Obligations.RunEndsAtTheFirstEndAddress :=
  fun _ n _ _ => runTo_eq_ended n

/-- Settles O1: the step is a reset step, which sets exactly these fields. -/
theorem resetStepForcesResetValues : Obligations.ResetStepForcesResetValues :=
  fun _ hreset => step_of_reset hreset

/-- Settles O2: the fields that a reset step does not set are the parameters, stack and image of the initial state, and
the three named. -/
theorem initialStateIsTheStateAfterAResetStep : Obligations.InitialStateIsTheStateAfterAResetStep := by
  refine ⟨fun p stackInit image => ?_, fun s hreset => ?_⟩
  · exact ⟨initial_pc .., initial_sp .., initial_carry .., initial_zero .., initial_regs .., initial_stk ..⟩
  · exact ⟨resetStep s, step_of_reset hreset, rfl⟩

/-- Settles O4: a reset step looks at no word, repeats itself while the level is held, and leaves `pc` at 0. -/
theorem resetHasPriorityAndThenAddressZeroRuns : Obligations.ResetHasPriorityAndThenAddressZeroRuns := by
  intro s hreset
  refine ⟨resetStep s, step_of_reset hreset, hreset, run_resetStep hreset, fun ir i hword hdec => ?_⟩
  exact step_of_decode rfl hword hdec

end Sys2Proof.Claims
end
